-- ==== Sys2Proof/Word.lean ====
section
/-! DEFINITION. The word types of the engine (00_scope R5, R6): a word of the ports and of the bit array, a key symbol,
and the byte of the byte view of 20_memory R36. -/

namespace Sys2Proof

/-- A 32-bit word (R5 `WORD_BITS`, `DIGEST_BITS`, `PORT_BITS`); bit `i` has weight `2^i` (R6). -/
abbrev Word := BitVec 32

/-- One 16-bit key symbol (R5 `SYM_BITS`). -/
abbrev Sym := BitVec 16

/-- One byte of the byte view of the bit array (R36), or an 8-bit field of a header (R53, R63). -/
abbrev Byte := BitVec 8

end Sys2Proof
end

