-- ==== Sys2Proof/Syntax.lean ====
section
/-! DEFINITION. The ten commands of 30_encoding R58 as data, in the shape of R65: one constructor per row of
spec/opcode_table.json. The two error terms of R65 are no commands: they are in `Packet` (Decode.lean). -/

namespace Sys2Proof

/-- A decoded, well-formed command packet (R65). -/
inductive Instr where
  /-- `INIT n, k`: create an empty filter (R130). -/
  | init (n k : Word)
  /-- `ADD key`: set the bits of the key's locations (R132). -/
  | add (key : List Sym)
  /-- `TEST key`: are all bits of the key's locations set (R134). -/
  | test (key : List Sym)
  /-- `LOC key`: the key's location sequence (R105). -/
  | loc (key : List Sym)
  /-- `HASH seed, key`: one digest (R87). -/
  | hash (seed : Word) (key : List Sym)
  /-- `MERGE ok, on, ow`: OR another filter's words into the array (R136). -/
  | merge (ok on : Word) (ow : List Word)
  /-- `RDW idx`: read one word of the array (R117). -/
  | rdw (idx : Word)
  /-- `RDR reg`: read one control or status register (R140). -/
  | rdr (reg : Byte)
  /-- `BSET idx`: set one bit (R115). -/
  | bset (idx : Word)
  /-- `BTST idx`: test one bit (R116). -/
  | btst (idx : Word)
  deriving DecidableEq, Repr

end Sys2Proof
end

