-- ==== Sys2Proof/WellFormed.lean ====
section
/-! DEFINITION. Which command terms a packet can carry (30_encoding R65): a key has at most 65535 symbols (00_scope R5
`KEY_LEN_MAX`, the `LEN` field of R54 has 16 bits), and a MERGE carries exactly `ON` operand words. Every other operand
is a field of fixed width, so its type is the whole check. -/

namespace Sys2Proof

/-- `KEY_LEN_MAX` (R5). -/
def keyLenMax : Nat := 65535

/-- A term of R65: the length conditions it states. -/
def Instr.WellFormed : Instr → Bool
  | .init _ _ => true
  | .add key => decide (key.length ≤ keyLenMax)
  | .test key => decide (key.length ≤ keyLenMax)
  | .loc key => decide (key.length ≤ keyLenMax)
  | .hash _ key => decide (key.length ≤ keyLenMax)
  | .merge _ on ow => ow.length == on.toNat
  | .rdw _ => true
  | .rdr _ => true
  | .bset _ => true
  | .btst _ => true

end Sys2Proof
end

