-- ==== Sys2Proof/Decode.lean ====
section
/-! DEFINITION. The command packets of 30_encoding: the opcode map (R58), the six formats (R54), the length of a packet
(R57), reserved bits (R61), the decoder of one packet and of a stream (R59, R60, R65, R66), and the encoder (R54, R67).
The ports carry whole words, so there is no byte order to decide here (20_memory R36). -/

namespace Sys2Proof

/-- The ten assigned opcodes (R58). -/
inductive Op where
  | init | add | test | loc | hash | merge | rdw | rdr | bset | btst
  deriving DecidableEq, Repr

/-- The six packet formats (R54). -/
inductive Format where
  | key | seededKey | oneWord | twoWords | register | merge
  deriving DecidableEq, Repr

/-- What one packet decodes to (R65): a command, or one of the two error terms. -/
inductive Packet where
  /-- A well-formed packet of a command. -/
  | command (i : Instr)
  /-- `MALFORMED opc`: the opcode is assigned and a reserved bit is set (R61). -/
  | malformed (opc : Byte)
  /-- `ILLEGAL opc`: the opcode is unassigned (R60). -/
  | illegal (opc : Byte)
  deriving DecidableEq, Repr

/-- The `OPC` column of R58. -/
def opCode : Op → Byte
  | .init => 0x01 | .add => 0x02 | .test => 0x03 | .loc => 0x04 | .hash => 0x05
  | .merge => 0x06 | .rdw => 0x07 | .rdr => 0x08 | .bset => 0x09 | .btst => 0x0A

/-- The command an opcode byte names; none for `0x00` and `0x0B .. 0xFF` (R58, R60). -/
def opOfByte (b : Byte) : Option Op :=
  match b.toNat with
  | 1 => some .init | 2 => some .add | 3 => some .test | 4 => some .loc | 5 => some .hash
  | 6 => some .merge | 7 => some .rdw | 8 => some .rdr | 9 => some .bset | 10 => some .btst
  | _ => none

/-- The `format` column of R58. -/
def opFormat : Op → Format
  | .init => .twoWords
  | .add => .key | .test => .key | .loc => .key
  | .hash => .seededKey
  | .merge => .merge
  | .rdw => .oneWord | .bset => .oneWord | .btst => .oneWord
  | .rdr => .register

/-- The command a term belongs to (R58, R65). -/
def opOf : Instr → Op
  | .init _ _ => .init | .add _ => .add | .test _ => .test | .loc _ => .loc | .hash _ _ => .hash
  | .merge _ _ _ => .merge | .rdw _ => .rdw | .rdr _ => .rdr | .bset _ => .bset | .btst _ => .btst

/-! ## Fields of a header and of a symbol word (R53, R54) -/

/-- `OPC`, bits 31:24 of a header (R53). -/
def headerOpc (h : Word) : Byte := h.extractLsb' 24 8

/-- `RSV`, bits 23:16 of a header (R53). -/
def headerRsv (h : Word) : Byte := h.extractLsb' 16 8

/-- `ARG`, bits 15:0 of a header (R53); `LEN` in formats K and S. -/
def headerArg (h : Word) : BitVec 16 := h.extractLsb' 0 16

/-- `REG`, bits 7:0 of a format R header (R54). -/
def headerReg (h : Word) : Byte := h.extractLsb' 0 8

/-- Bits 15:8 of a header, reserved in format R (R54). -/
def headerArgHigh (h : Word) : Byte := h.extractLsb' 8 8

/-- `SRSV`, bits 31:16 of a symbol word (R54). -/
def symbolRsv (w : Word) : BitVec 16 := w.extractLsb' 16 16

/-- `SYM`, bits 15:0 of a symbol word (R54). -/
def symbolOf (w : Word) : Sym := w.extractLsb' 0 16

/-! ## Length and reserved bits -/

/-- The number of payload words of a packet whose header is `h` and whose following words are `ws` (R57); none while
a MERGE has not yet shown its second payload word. -/
def payloadLength (op : Op) (h : Word) (ws : List Word) : Option Nat :=
  match opFormat op with
  | .key => some (headerArg h).toNat
  | .seededKey => some (1 + (headerArg h).toNat)
  | .oneWord => some 1
  | .twoWords => some 2
  | .register => some 0
  | .merge =>
    match ws with
    | _ :: on :: _ => some (2 + on.toNat)
    | _ => none

/-- The reserved bits of a format's header that must be 0 are 0 (R61 (a), (b), (c)). -/
def headerClean (op : Op) (h : Word) : Bool :=
  headerRsv h == 0 &&
    match opFormat op with
    | .key => true
    | .seededKey => true
    | .oneWord => headerArg h == 0
    | .twoWords => headerArg h == 0
    | .merge => headerArg h == 0
    | .register => headerArgHigh h == 0

/-- Bits 31:16 of every symbol word are 0 (R61 (d)). -/
def symbolsClean (op : Op) (payload : List Word) : Bool :=
  match opFormat op with
  | .key => payload.all fun w => symbolRsv w == 0
  | .seededKey => (payload.drop 1).all fun w => symbolRsv w == 0
  | .oneWord => true
  | .twoWords => true
  | .merge => true
  | .register => true

/-- The term built from a header and its payload (R54, R65). -/
def termOf (op : Op) (h : Word) (payload : List Word) : Instr :=
  match op with
  | .init => .init (payload.getD 0 0) (payload.getD 1 0)
  | .add => .add (payload.map symbolOf)
  | .test => .test (payload.map symbolOf)
  | .loc => .loc (payload.map symbolOf)
  | .hash => .hash (payload.getD 0 0) ((payload.drop 1).map symbolOf)
  | .merge => .merge (payload.getD 0 0) (payload.getD 1 0) (payload.drop 2)
  | .rdw => .rdw (payload.getD 0 0)
  | .rdr => .rdr (headerReg h)
  | .bset => .bset (payload.getD 0 0)
  | .btst => .btst (payload.getD 0 0)

/-- A whole packet of an assigned opcode: malformed (R61), else the command's term. -/
def packetOf (op : Op) (h : Word) (payload : List Word) : Packet :=
  if headerClean op h && symbolsClean op payload then .command (termOf op h payload)
  else .malformed (headerOpc h)

/-- The first packet of a word sequence that starts at a header, and the words after it; none while the packet is
incomplete (R57, R59, R60, R61, R66). The opcode is looked at first, and the reserved bits only once the whole packet
is there. -/
def decode : List Word → Option (Packet × List Word)
  | [] => none
  | h :: ws =>
    match opOfByte (headerOpc h) with
    | none => some (.illegal (headerOpc h), ws)
    | some op =>
      match payloadLength op h ws with
      | none => none
      | some n =>
        if n ≤ ws.length then some (packetOf op h (ws.take n), ws.drop n) else none

/-- The packets of a stream, with the words of an incomplete last packet (R66). `fuel` bounds the packets read; the
number of words is enough, because every packet has a header. -/
def decodeStreamWith : Nat → List Word → List Packet × List Word
  | 0, ws => ([], ws)
  | fuel + 1, ws =>
    match decode ws with
    | none => ([], ws)
    | some (p, rest) =>
      let (ps, left) := decodeStreamWith fuel rest
      (p :: ps, left)

/-- R66 `decode_stream`: the packets of a command stream and the words it holds back. -/
def decodeStream (ws : List Word) : List Packet × List Word := decodeStreamWith ws.length ws

/-! ## Encoder -/

/-- A header word with `RSV = 0` (R53): the opcode in the top byte, `ARG` in the low half. -/
def headerWord (op : Op) (arg : BitVec 16) : Word :=
  BitVec.ofNat 32 ((opCode op).toNat * 2 ^ 24 + arg.toNat)

/-- The payload word of a symbol (R54, R55). -/
def symbolWord (c : Sym) : Word := c.setWidth 32

/-- `LEN` of a key (R54). -/
def keyLen (key : List Sym) : BitVec 16 := BitVec.ofNat 16 key.length

/-- The payload words of a term (R54, the packet column of R67). -/
def payloadOf : Instr → List Word
  | .init n k => [n, k]
  | .add key => key.map symbolWord
  | .test key => key.map symbolWord
  | .loc key => key.map symbolWord
  | .hash seed key => seed :: key.map symbolWord
  | .merge ok on ow => ok :: on :: ow
  | .rdw idx => [idx]
  | .rdr _ => []
  | .bset idx => [idx]
  | .btst idx => [idx]

/-- `ARG` of a term's header (R53, R54). -/
def argOf : Instr → BitVec 16
  | .init _ _ => 0
  | .add key => keyLen key
  | .test key => keyLen key
  | .loc key => keyLen key
  | .hash _ key => keyLen key
  | .merge _ _ _ => 0
  | .rdw _ => 0
  | .rdr reg => reg.setWidth 16
  | .bset _ => 0
  | .btst _ => 0

/-- The words of a command packet (R54, R67). -/
def encode (i : Instr) : List Word := headerWord (opOf i) (argOf i) :: payloadOf i

/-! ## The words of an opcode-table row -/

/-- Word `j` of a bit string numbered as the opcode table numbers it: bit 0 of the string is bit 0 of the first word. -/
def wordAt (w j : Nat) : Word := BitVec.ofNat 32 (w / 2 ^ (32 * j))

/-- The payload length of the packet whose first words are in `w`. -/
def tablePayload (w : Nat) : Nat :=
  match opOfByte (headerOpc (wordAt w 0)) with
  | none => 0
  | some op => (payloadLength op (wordAt w 0) [wordAt w 1, wordAt w 2]).getD 0

/-- The whole packet whose bits are `w`, with every bit from `nbits` on equal to 0: the words the bits reach, then words
of zeros, as many as R57 counts. -/
def tableWords (nbits w : Nat) : List Word :=
  let bits := w % 2 ^ nbits
  let n := 1 + tablePayload bits
  ((List.range ((nbits + 31) / 32)).map (wordAt bits) ++ List.replicate n 0).take n

/-- The command the decoder reads from an instruction whose bits are `w`, numbered as spec/opcode_table.json numbers
them; none where it refuses. -/
def decodeTableWord (nbits w : Nat) : Option Instr :=
  match decode (tableWords nbits w) with
  | some (.command i, _) => some i
  | _ => none

end Sys2Proof
end

