-- ==== Sys2Proof/Config.lean ====
section
/-! DEFINITION. The OPEN parameters of 00_scope R5 that a model takes as an argument of its step (R8): `N_MAX`, `K_MAX`,
`SIGNED_DIGEST`, `MIX`. They are plain data that a state carries and no step changes (log 3); the finishing mix is
either the default of 40_hash_engine R83 or a function nothing constrains (log 4). -/

namespace Sys2Proof

/-- Which finishing mix an engine has (R83): `stated` is the five-step default, `free i` is the function
`Config.freeMix i`, of which nothing is known but that it is total and depends on its argument alone. -/
inductive MixChoice where
  | stated
  | free (i : Nat)
  deriving DecidableEq, Repr

/-- The configuration of one engine (R5, R8). -/
structure Config where
  /-- `N_MAX`: the number of words of storage, the largest legal `n` (R5, D3). -/
  nMax : Nat
  /-- `K_MAX`: the largest legal `num_hashes` (R5, D4). -/
  kMax : Nat
  /-- `SIGNED_DIGEST`: are the two digests read as signed numbers (R102, D9). -/
  signedDigest : Bool
  /-- `MIX`: the finishing mix (R83, D8). -/
  mix : MixChoice
  deriving DecidableEq, Repr

/-- The constraints that R5 puts on the OPEN parameters; it puts none on `SIGNED_DIGEST` and `MIX`. -/
abbrev Config.Legal (c : Config) : Prop :=
  1 ≤ c.nMax ∧ c.nMax ≤ 2 ^ 27 - 1 ∧ 1 ≤ c.kMax ∧ c.kMax ≤ 2 ^ 32 - 1

/-- FREE VALUE (log 4): the finishing mixes an engine may have instead of the stated default (R83: a model may rely
only on `MIX` being total, deterministic and a function of its argument). No body: nothing evaluates it. -/
opaque Config.freeMix : Nat → Word → Word

end Sys2Proof
end

