-- ==== Sys2Proof/Machine/State.lean ====
section
/-! DEFINITION. The state of the engine as plain data (10_state R13 to R20), the configuration it was built with
(00_scope R5, R8), the two word streams and pins of its ports as far as a step reads or writes them (30_encoding R50,
R51), the reasons a step can stop, and the state after reset (R20, 70_reset R200). -/

namespace Sys2Proof.Machine

/-- Why a step may stop. Every error of 60_exceptions R171 is a response, hence a next state: none of them is here. -/
inductive Fault where
  /-- Raised by ADD, TEST and LOC in a state that is configured with `MBITS = 0`: the remainder by 0 has no meaning
  (00_scope R7), and R101 says that no run reaches such a state. Safe: it stops where the spec says nothing (log 9). -/
  | remainderByZero
  deriving DecidableEq, Repr

/-- Why a step may have no meaning. -/
inductive Refusal where
  /-- Raised by an arm of exec whose instruction has no meaning yet; no arm raises it now. Safe. -/
  | notModelled (mnemonic : String)
  deriving DecidableEq, Repr

/-- The engine (R13, R16, R19), its configuration, and the host's side of its ports. -/
structure State where
  /-- The OPEN parameters (R5); no step changes them (log 3). -/
  cfg : Config
  /-- `STATUS.CONFIGURED` (R13, R14). -/
  configured : Bool
  /-- `NWORDS`, the number of words of the bit array (R13). -/
  nwords : Word
  /-- `NHASH`, the number of bit indices per key (R13). -/
  nhash : Word
  /-- The bit array `W` (R16), as the bytes of 20_memory R36: byte `4 * i + j` is `W[i][8j+7:8j]` (log 1, log 2). -/
  mem : List Host.Cell
  /-- Packet scratch: the words received so far of a packet that is not yet whole (R19, R207). -/
  scratch : List Word
  /-- The response words offered at the response port and not yet accepted (R20, R206). -/
  rsp : List Word
  /-- Input pin `rst` (R50, R200), driven by the host. -/
  rst : Bool
  /-- Command words the host has offered and the engine has not yet accepted, oldest first (R50, R51). -/
  cmdIn : List Word
  /-- Input pin `rsp_ready` (R50, R51), driven by the host. -/
  rspReady : Bool
  /-- The response stream: the words that have moved across the response port, oldest first (R51, R210). -/
  rspStream : List Word
  deriving DecidableEq, Repr

/-- What one step of the engine works on, decided at the ports (Ports.lean): either the step is finished there, or a
whole command packet has been received and its command is to be executed in the given state. -/
inductive Phase where
  | settled (s : State)
  | command (i : Instr) (s : State)
  deriving DecidableEq, Repr

/-- The configuration that State.reset carries. DESIGN CHOICE, unsafe, log 3 and log 4: `N_MAX` and `K_MAX` have no
value in the spec (the largest legal ones are taken), `SIGNED_DIGEST` and `MIX` have the stated defaults (R5, R83). -/
def resetConfig : Config :=
  { nMax := 2 ^ 27 - 1, kMax := 2 ^ 32 - 1, signedDigest := false, mix := .stated }

/-- The engine right after reset (R20, R200): not configured, both registers 0, the array empty, scratch empty, no
response pending. The host's side of the ports: log 5. -/
def State.reset : State :=
  { cfg := resetConfig
    configured := false
    nwords := 0
    nhash := 0
    mem := []
    scratch := []
    rsp := []
    rst := false
    cmdIn := []
    rspReady := true
    rspStream := [] }

end Sys2Proof.Machine
end

