-- ==== Sys2Proof/Machine/Operands.lean ====
section
/-! DEFINITION. The operand forms of the commands (30_encoding R54, R56; 20_memory R30): a bit index splits into word
index and sub-bit (R31), a word or bit index is legal below its limit (R33), a register number names one of four
registers (10_state R13), and a symbol has a high and a low part (40_hash_engine R84). No operand is scaled,
sign-extended or assembled (R56). -/

namespace Sys2Proof.Machine

/-- `MBITS`, always `32 * NWORDS` (R13, R15): the number of addressable bits, as an exact number (log 11). -/
def mbits (s : State) : Nat := 32 * s.nwords.toNat

/-- The word index of a bit index (R31). -/
def bitWord (b : Nat) : Nat := b / 32

/-- The sub-bit of a bit index: its position in the word, counted from the least significant bit (R31, R110). -/
def subBit (b : Nat) : Nat := b % 32

/-- The mask of a bit index (R31). -/
def bitMask (b : Nat) : Word := 1#32 <<< subBit b

/-- A word index operand is inside the array (R33 (a)). -/
def wordIndexLegal (idx : Word) (s : State) : Bool := decide (idx.toNat < s.nwords.toNat)

/-- A bit index operand is inside the array (R33 (b)). -/
def bitIndexLegal (idx : Word) (s : State) : Bool := decide (idx.toNat < mbits s)

/-- The high part of a symbol, `c[15:8]`, zero-extended (R84). -/
def symHigh (c : Sym) : Word := (c.extractLsb' 8 8).setWidth 32

/-- The low part of a symbol, `c[7:0]`, zero-extended (R84). -/
def symLow (c : Sym) : Word := (c.extractLsb' 0 8).setWidth 32

end Sys2Proof.Machine
end

