-- ==== Sys2Proof/Machine/Flags.lean ====
section
/-! DEFINITION. The engine's one flag `CONFIGURED` as the word `STATUS` (10_state R13, R14), the four readable registers
by number (R13, 43_filter_ops R140), and the `FLAG` bit of a response (30_encoding R63). Nothing here writes a flag: INIT
and reset alone do (R14), and hash arithmetic sets none (40_hash_engine R81). -/

namespace Sys2Proof.Machine

/-- The 32-bit value of `STATUS`: bit 0 is `CONFIGURED`, bits 31:1 are hardwired 0 (R13). -/
def statusWord (s : State) : Word := (BitVec.ofBool s.configured).setWidth 32

/-- The register a register number names; none for `0x04 .. 0xFF` (R13, R140). -/
def readRegister (reg : Byte) (s : State) : Option Word :=
  match reg.toNat with
  | 0 => some (statusWord s)
  | 1 => some s.nwords
  | 2 => some (BitVec.ofNat 32 (mbits s))
  | 3 => some s.nhash
  | _ => none

/-- The `FLAG` bit of a response as a number, 1 for true (R63). -/
def flagBit (flag : Bool) : Nat := flag.toNat

end Sys2Proof.Machine
end

