-- ==== Sys2Proof/Machine/Ops.lean ====
section
/-! DEFINITION. The named operations over the bit array, byte by byte, word by word and bit by bit (20_memory R31, R34,
R36; 42_bit_array R110 to R114), the response packets (30_encoding R62 to R64), and raising an error, the engine's only
kind of exception (60_exceptions R170 to R177). An error saves nothing, enters no handler and has no return (R178). -/

namespace Sys2Proof.Machine

/-- What a command, and a step, answers. -/
abbrev Result := Host.Outcome State Fault Refusal

/-! ## The bit array as bytes (R36, log 1, log 2) -/

/-- What an unlisted byte of the bit array reads as: 0, as INIT leaves every word it makes addressable (42_bit_array
R114). DESIGN CHOICE, unsafe, log 2: words a filter does not have are unspecified in the hardware (R20). -/
def Memory.unlisted : Byte := 0

/-- The canonical form of the bit array: addresses strictly rising, and no entry equal to what an unlisted address
reads as. Equal arrays are then equal lists. -/
abbrev Memory.wf (m : List Host.Cell) : Prop :=
  m.Pairwise (fun c d => c.1 < d.1) ∧ ∀ c ∈ m, c.2 ≠ Memory.unlisted

/-- One byte of the byte view of the array (R36). -/
def Memory.read : List Host.Cell → Nat → Byte
  | [], _ => Memory.unlisted
  | (a, v) :: m, x => if a = x then v else Memory.read m x

/-- Put a byte in front of the listed ones, unless an unlisted address reads as it anyway. -/
def Memory.cons (x : Nat) (v : Byte) (m : List Host.Cell) : List Host.Cell :=
  if v = Memory.unlisted then m else (x, v) :: m

/-- Replace one byte of the byte view, keeping the canonical form. -/
def Memory.write : List Host.Cell → Nat → Byte → List Host.Cell
  | [], x, v => Memory.cons x v []
  | (a, w) :: m, x, v =>
    if x < a then Memory.cons x v ((a, w) :: m)
    else if x = a then Memory.cons x v m
    else (a, w) :: Memory.write m x v

/-! ## Words: the only accesses the engine performs (R34) -/

/-- Byte `j` of a word, `w[8j+7:8j]` (R36). -/
def wordByte (w : Word) (j : Nat) : Byte := BitVec.ofNat 8 (w.toNat / 2 ^ (8 * j))

/-- The word whose bytes are `b0` (bits 7:0) to `b3` (bits 31:24) (R36). -/
def wordOfBytes (b0 b1 b2 b3 : Byte) : Word :=
  BitVec.ofNat 32 (b0.toNat + 2 ^ 8 * b1.toNat + 2 ^ 16 * b2.toNat + 2 ^ 24 * b3.toNat)

/-- `MemRead(i, 32)`, written `W[i]` (00_scope R7). -/
def readWord (m : List Host.Cell) (i : Nat) : Word :=
  wordOfBytes (Memory.read m (4 * i)) (Memory.read m (4 * i + 1)) (Memory.read m (4 * i + 2))
    (Memory.read m (4 * i + 3))

/-- `MemWrite(i, 32, v)`, written `W[i] <- v` (R7). -/
def writeWord (m : List Host.Cell) (i : Nat) (v : Word) : List Host.Cell :=
  Memory.write (Memory.write (Memory.write (Memory.write m (4 * i) (wordByte v 0)) (4 * i + 1) (wordByte v 1))
    (4 * i + 2) (wordByte v 2)) (4 * i + 3) (wordByte v 3)

/-- The read-modify-write of R34: OR a mask into word `i`. -/
def orWord (m : List Host.Cell) (i : Nat) (mask : Word) : List Host.Cell :=
  writeWord m i (readWord m i ||| mask)

/-! ## The primitives of the bit array -/

/-- `bitTest(b)` (R110, R31): the bit of the word, moved down and masked. -/
def bitTest (m : List Host.Cell) (b : Nat) : Bool :=
  decide ((readWord m (bitWord b) >>> subBit b) &&& 1#32 = 1#32)

/-- `bitSet(b)` (R111). -/
def bitSet (m : List Host.Cell) (b : Nat) : List Host.Cell := orWord m (bitWord b) (bitMask b)

/-- Set the bits of an index sequence, in order (R132). -/
def bitSetAll (m : List Host.Cell) (bs : List Nat) : List Host.Cell := bs.foldl bitSet m

/-- `mergeOr` from word `i` on (R113). -/
def mergeOrFrom (m : List Host.Cell) : Nat → List Word → List Host.Cell
  | _, [] => m
  | i, w :: ws => mergeOrFrom (orWord m i w) (i + 1) ws

/-- `mergeOr(src)` (R113). -/
def mergeOr (m : List Host.Cell) (src : List Word) : List Host.Cell := mergeOrFrom m 0 src

/-- `zeroFill(n)` for a new filter (R114): every word of the new geometry is 0, and words beyond it are not part of
the state (R16), so nothing stays listed. -/
def zeroFill : List Host.Cell := []

/-! ## Responses (R62, R63, R64) -/

/-- The error codes (R171). -/
inductive ErrorCode where
  | ok | invalidArg | incompatHashes | incompatSize | notConfigured | range | illegalCmd | malformed
  deriving DecidableEq, Repr

/-- The `ERR` field of a response header (R171). -/
def errorByte : ErrorCode → Byte
  | .ok => 0x00 | .invalidArg => 0x01 | .incompatHashes => 0x02 | .incompatSize => 0x03
  | .notConfigured => 0x04 | .range => 0x05 | .illegalCmd => 0x06 | .malformed => 0x07

/-- A response header: `OPC` 31:24, `ERR` 23:16, zero 15:1, `FLAG` 0 (R63). -/
def responseHeader (opc : Byte) (err : ErrorCode) (flag : Bool) : Word :=
  BitVec.ofNat 32 (opc.toNat * 2 ^ 24 + (errorByte err).toNat * 2 ^ 16 + flagBit flag)

/-- Offer words at the response port, after those already offered (R62). -/
def emit (s : State) (ws : List Word) : State := { s with rsp := s.rsp ++ ws }

/-- `respond(flag, words)` of the command with opcode `opc` (00_scope R7, R63, R64). -/
def respond (opc : Byte) (flag : Bool) (ws : List Word) (s : State) : State :=
  emit s (responseHeader opc .ok flag :: ws)

/-- `raise <Error>` (R7), the shared error entry (R176): no architectural state changes, and the response is the
header alone with the code and `FLAG = 0`. -/
def raiseError (opc : Byte) (err : ErrorCode) (s : State) : State :=
  emit s [responseHeader opc err false]

/-- The check that ADD, TEST, LOC, MERGE, RDW, BSET and BTST make first (R173, R177). -/
def whenConfigured (opc : Byte) (s : State) (go : Result) : Result :=
  if s.configured then go else .next (raiseError opc .notConfigured s)

end Sys2Proof.Machine
end

