-- ==== Sys2Proof/Machine/BitArray.lean ====
section
/-! DEFINITION. The commands on single bits and raw words (42_bit_array): BSET, BTST, RDW. -/

namespace Sys2Proof.Machine

/-- BSET (R115). -/
def execBset (idx : Word) (s : State) : Result :=
  whenConfigured (opCode .bset) s
    (if bitIndexLegal idx s then
      .next (respond (opCode .bset) false [] { s with mem := bitSet s.mem idx.toNat })
    else .next (raiseError (opCode .bset) .range s))

/-- BTST (R116). -/
def execBtst (idx : Word) (s : State) : Result :=
  whenConfigured (opCode .btst) s
    (if bitIndexLegal idx s then .next (respond (opCode .btst) (bitTest s.mem idx.toNat) [] s)
    else .next (raiseError (opCode .btst) .range s))

/-- RDW (R117). -/
def execRdw (idx : Word) (s : State) : Result :=
  whenConfigured (opCode .rdw) s
    (if wordIndexLegal idx s then .next (respond (opCode .rdw) false [readWord s.mem idx.toNat] s)
    else .next (raiseError (opCode .rdw) .range s))

end Sys2Proof.Machine
end

