-- ==== Sys2Proof/Machine/HashEngine.lean ====
section
/-! DEFINITION. The hash mixer (40_hash_engine): `fnvMultiply`, the finishing mix, the fold of one symbol, `fnv1a`, the
two digests of a key, and the command HASH. All arithmetic is unsigned 32-bit with silent wraparound (R81). -/

namespace Sys2Proof.Machine

/-- `FNV_OFFSET` (00_scope R5). -/
def fnvOffset : Word := 0x811C9DC5

/-- `FNV_PRIME`, 16777619 (R5). -/
def fnvPrime : Word := 16777619

/-- `SEED_A` (R5, R88). -/
def seedA : Word := 0

/-- `SEED_B`, 1576284489 (R5, R88). -/
def seedB : Word := 1576284489

/-- `fnvMultiply(a)` (R82): the product with the FNV prime, modulo `2^32`. -/
def fnvMultiply (a : Word) : Word := a * fnvPrime

/-- The default finishing mix (R83), five assignments. PRESUMED by the spec itself (G1), log 4. -/
def mixStated (a : Word) : Word :=
  let a := a + (a <<< 13)
  let a := a ^^^ (a >>> 7)
  let a := a + (a <<< 3)
  let a := a ^^^ (a >>> 17)
  a + (a <<< 5)

/-- `MIX(a)` of an engine (R83): the stated default, or a function nothing constrains (log 4). -/
def applyMix (mix : MixChoice) (a : Word) : Word :=
  match mix with
  | .stated => mixStated a
  | .free i => Config.freeMix i a

/-- `fold(acc, c)` (R84): the high part first and only when it is not zero, the low part always. -/
def foldSymbol (acc : Word) (c : Sym) : Word :=
  let acc := if symHigh c ≠ 0 then fnvMultiply (acc ^^^ symHigh c) else acc
  fnvMultiply (acc ^^^ symLow c)

/-- The accumulator of `fnv1a` before the finishing mix (R85). -/
def fnvAccumulate (key : List Sym) (seed : Word) : Word := key.foldl foldSymbol (fnvOffset ^^^ seed)

/-- `fnv1a(key, seed)` (R85). -/
def fnv1a (mix : MixChoice) (key : List Sym) (seed : Word) : Word := applyMix mix (fnvAccumulate key seed)

/-- The digest `a` of a key (R88). -/
def digestA (mix : MixChoice) (key : List Sym) : Word := fnv1a mix key seedA

/-- The digest `b` of a key (R88). -/
def digestB (mix : MixChoice) (key : List Sym) : Word := fnv1a mix key seedB

/-- HASH (R87). -/
def execHash (seed : Word) (key : List Sym) (s : State) : Result :=
  .next (respond (opCode .hash) false [fnv1a s.cfg.mix key seed] s)

end Sys2Proof.Machine
end

