-- ==== Sys2Proof/Machine/LocationGenerator.lean ====
section
/-! DEFINITION. The bit-index generator (41_location_generator): how the digests are read, the sequence of double
hashing with an exact sum, and the command LOC. -/

namespace Sys2Proof.Machine

/-- A digest as the mathematical integer the generator works on (R102). -/
def digestInt (signed : Bool) (d : Word) : Int := if signed then d.toInt else d.toNat

/-- `a mod m` for `m > 0`: the floored remainder, never negative (00_scope R7). -/
def floorMod (a : Int) (m : Nat) : Nat := (a % (m : Int)).toNat

/-- The loop of R103: emit `x`, then advance it by `B` with an exact sum and a floored remainder. -/
def locationLoop (m : Nat) (b : Int) : Nat → Nat → List Nat
  | 0, _ => []
  | k + 1, x => x :: locationLoop m b k (floorMod (x + b) m)

/-- The location sequence from the two digests (R102, R103). -/
def locationsOf (signed : Bool) (a b : Word) (m k : Nat) : List Nat :=
  locationLoop m (digestInt signed b) k (floorMod (digestInt signed a) m)

/-- `locations(m, k, key)` for an engine's configuration (R100, R103). -/
def locations (cfg : Config) (m k : Nat) (key : List Sym) : List Nat :=
  locationsOf cfg.signedDigest (digestA cfg.mix key) (digestB cfg.mix key) m k

/-- The locations of a key for the current geometry (R100: `m` is `MBITS` and `k` is `NHASH`). -/
def keyLocations (s : State) (key : List Sym) : List Nat := locations s.cfg (mbits s) s.nhash.toNat key

/-- What ADD, TEST and LOC share: the CONFIGURED check, then the locations of the key (R101). The fault is for states
that no run reaches, log 9. -/
def withLocations (opc : Byte) (key : List Sym) (s : State) (go : List Nat → State) : Result :=
  whenConfigured opc s
    (if mbits s = 0 then .fault .remainderByZero else .next (go (keyLocations s key)))

/-- LOC (R105). -/
def execLoc (key : List Sym) (s : State) : Result :=
  withLocations (opCode .loc) key s fun xs =>
    respond (opCode .loc) false (xs.map (BitVec.ofNat 32)) s

end Sys2Proof.Machine
end

