-- ==== Sys2Proof/Machine/FilterOps.lean ====
section
/-! DEFINITION. The filter operations (43_filter_ops): INIT, ADD, TEST, MERGE, RDR. -/

namespace Sys2Proof.Machine

/-- A successful INIT's state (R130, R131): the old filter is gone, the new one is empty. -/
def createFilter (n k : Word) (s : State) : State :=
  { s with nwords := n, nhash := k, mem := zeroFill, configured := true }

/-- INIT's operand checks (R130): `1 <= n <= N_MAX` and `1 <= k <= K_MAX`. -/
def initLegal (n k : Word) (s : State) : Bool :=
  !(n == 0 || decide (s.cfg.nMax < n.toNat)) && !(k == 0 || decide (s.cfg.kMax < k.toNat))

/-- INIT (R130). -/
def execInit (n k : Word) (s : State) : Result :=
  if initLegal n k s then .next (respond (opCode .init) false [] (createFilter n k s))
  else .next (raiseError (opCode .init) .invalidArg s)

/-- ADD (R132). -/
def execAdd (key : List Sym) (s : State) : Result :=
  withLocations (opCode .add) key s fun xs =>
    respond (opCode .add) false [] { s with mem := bitSetAll s.mem xs }

/-- TEST (R134): the conjunction; where the loop stops is not observable (R135). -/
def execTest (key : List Sym) (s : State) : Result :=
  withLocations (opCode .test) key s fun xs =>
    respond (opCode .test) (xs.all (bitTest s.mem)) [] s

/-- MERGE (R136): configured, then the hash count, then the word count, before any word is merged. -/
def execMerge (ok on : Word) (ow : List Word) (s : State) : Result :=
  whenConfigured (opCode .merge) s
    (if ok ≠ s.nhash then .next (raiseError (opCode .merge) .incompatHashes s)
    else if on ≠ s.nwords then .next (raiseError (opCode .merge) .incompatSize s)
    else .next (respond (opCode .merge) false [] { s with mem := mergeOr s.mem ow }))

/-- RDR (R140): works in every state. -/
def execRdr (reg : Byte) (s : State) : Result :=
  match readRegister reg s with
  | some v => .next (respond (opCode .rdr) false [v] s)
  | none => .next (raiseError (opCode .rdr) .range s)

end Sys2Proof.Machine
end

