-- ==== Sys2Proof/Machine/Dispatch.lean ====
section
/-! DEFINITION. Each command of 30_encoding R58 and its meaning. -/

namespace Sys2Proof.Machine

def exec (i : Instr) (s : State) : Host.Outcome State Fault Refusal :=
  match i with
  | .init n k => Sys2Proof.Machine.execInit n k s
  | .add key => Sys2Proof.Machine.execAdd key s
  | .test key => Sys2Proof.Machine.execTest key s
  | .loc key => Sys2Proof.Machine.execLoc key s
  | .hash seed key => Sys2Proof.Machine.execHash seed key s
  | .merge ok on ow => Sys2Proof.Machine.execMerge ok on ow s
  | .rdw idx => Sys2Proof.Machine.execRdw idx s
  | .rdr reg => Sys2Proof.Machine.execRdr reg s
  | .bset idx => Sys2Proof.Machine.execBset idx s
  | .btst idx => Sys2Proof.Machine.execBtst idx s

end Sys2Proof.Machine
end

