-- ==== Sys2Proof/Machine/Ports.lean ====
section
/-! DEFINITION. What happens at the ports (30_encoding R50, R51): reset (70_reset R200, R202, R203), moving one response
word (R51, R206), receiving a command packet or holding an incomplete one (R205, R207), the answer to malformed and
illegal packets (R60, R61), the output pins, and what the host may do between steps (44_host_procedures R162). -/

namespace Sys2Proof.Machine

/-! ## Output pins (R50) -/

/-- `rsp_valid`: a response word is offered; 0 during reset (R200). -/
def rspValid (s : State) : Bool := !s.rst && !s.rsp.isEmpty

/-- `rsp_data`: the response word offered, if any. -/
def rspData (s : State) : Option Word := if s.rst then none else s.rsp.head?

/-- `cmd_ready`: the engine takes command words when it is neither in reset nor holding a response (R200, R206;
log 6). -/
def cmdReady (s : State) : Bool := !s.rst && s.rsp.isEmpty

/-! ## Reset -/

/-- The reset state of R20 and R200, whatever the engine was doing: scratch and pending response are dropped (R202).
The configuration, the pins and the two streams are not the engine's to reset (log 8). -/
def resetEngine (s : State) : State :=
  { State.reset with
    cfg := s.cfg
    rst := s.rst
    cmdIn := s.cmdIn
    rspReady := s.rspReady
    rspStream := s.rspStream }

/-! ## The response port -/

/-- One offered response word moves when the host is ready; else the engine holds it and changes nothing (R51, R206). -/
def moveResponse (s : State) : State :=
  if rspValid s && s.rspReady then
    { s with rsp := s.rsp.drop 1, rspStream := s.rspStream ++ s.rsp.take 1 }
  else s

/-! ## The command port -/

/-- Take the words offered into scratch and wait for the rest of the packet (R19, R207). -/
def holdPacket (s : State) : State := { s with scratch := s.scratch ++ s.cmdIn, cmdIn := [] }

/-- Consume a whole packet: scratch is empty again, and the words after the packet stay offered (R57, R205). -/
def consumePacket (s : State) (rest : List Word) : State := { s with scratch := [], cmdIn := rest }

/-- Receive a packet (R52, R66): a whole command goes to execution; a malformed or illegal packet is answered at once
with its error and executed in no part (R60, R61); an incomplete one is held. -/
def receivePacket (s : State) : Phase :=
  match decode (s.scratch ++ s.cmdIn) with
  | none => .settled (holdPacket s)
  | some (.command i, rest) => .command i (consumePacket s rest)
  | some (.malformed opc, rest) => .settled (raiseError opc .malformed (consumePacket s rest))
  | some (.illegal opc, rest) => .settled (raiseError opc .illegalCmd (consumePacket s rest))

/-- What the next step works on: reset before anything else (R200), then a pending response (R205, R206), then the
command port. -/
def nextPhase (s : State) : Phase :=
  if s.rst then .settled (resetEngine s)
  else if cmdReady s then receivePacket s
  else .settled (moveResponse s)

/-! ## The host's side (R162) -/

/-- The host offers more command words. -/
def hostSend (ws : List Word) (s : State) : State := { s with cmdIn := s.cmdIn ++ ws }

/-- The host drives `rsp_ready`. -/
def hostReady (ready : Bool) (s : State) : State := { s with rspReady := ready }

/-- The host drives `rst`. -/
def hostReset (rst : Bool) (s : State) : State := { s with rst := rst }

/-- The host withdraws the command words it still offers (after a reset it must not continue an old packet, R202). -/
def hostWithdraw (s : State) : State := { s with cmdIn := [] }

/-- Put a packet where the next step reads it: first at the command port of an engine that waits for a header. -/
def placePacket (ws : List Word) (s : State) : State :=
  { s with scratch := [], rsp := [], rst := false, cmdIn := ws ++ s.cmdIn }

end Sys2Proof.Machine
end

