-- ==== Sys2Proof/Machine/Step.lean ====
section
/-! DEFINITION. One step of the engine (00_scope R8, 70_reset R205): the ports decide what it works on (Ports.lean), and
a whole command packet is executed at once and to completion. -/

namespace Sys2Proof.Machine

/-- One step: reset, one response word moved or held, one packet held or answered, or one command executed. -/
def step (s : State) : Host.Outcome State Fault Refusal :=
  match nextPhase s with
  | .settled t => .next t
  | .command i t => exec i t

/-- The state in which the very next step executes the command whose bits are `w` (log 10). -/
def State.withFetchWord (s : State) (nbits w : Nat) : State := placePacket (tableWords nbits w) s

end Sys2Proof.Machine
end

