-- ==== Sys2Proof/Machine/Macros.lean ====
section
/-! DEFINITION. The host's command sequences as far as the spec gives them in commands: the assembler's key operand
(30_encoding R67), the macros LOAD, UNION and SAVE (R68; 44_host_procedures R156, R158, R160), and the byte view a
serializer writes (20_memory R36, R158). Sizing math, text encodings and record syntax are the host's (00_scope R4). -/

namespace Sys2Proof.Machine

/-- A double-quoted key operand: one symbol per ASCII character (R67). -/
def keyOfString (text : String) : List Sym := text.toList.map fun c => BitVec.ofNat 16 c.toNat

/-- The register numbers behind the names `STATUS`, `NWORDS`, `MBITS`, `NHASH` (R67, 10_state R13). -/
def regStatus : Byte := 0x00

/-- See `regStatus`. -/
def regNwords : Byte := 0x01

/-- See `regStatus`. -/
def regMbits : Byte := 0x02

/-- See `regStatus`. -/
def regNhash : Byte := 0x03

/-- `CREATE`, once the host's sizing math has given `n` and `k` (R68, R152). -/
def createMacro (n k : Word) : List Instr := [.init n k]

/-- `LOAD k, words` (R68, R160), for fewer than `2^32` words (HostProcedures.lean: `recordContents`). -/
def loadMacro (k : Word) (ws : List Word) : List Instr :=
  [.init (BitVec.ofNat 32 ws.length) k, .merge k (BitVec.ofNat 32 ws.length) ws]

/-- `UNION k', words` (R68, R156), for fewer than `2^32` words (HostProcedures.lean: `unionPlan`). -/
def unionMacro (k : Word) (ws : List Word) : List Instr := [.merge k (BitVec.ofNat 32 ws.length) ws]

/-- Read every word of a filter of `n` words, in order (R158). -/
def readAllWords (n : Nat) : List Instr := (List.range n).map fun i => .rdw (BitVec.ofNat 32 i)

/-- `SAVE` of a filter of `n` words (R68, R158): the two registers, then every word in order. -/
def saveMacro (n : Nat) : List Instr := .rdr regNhash :: .rdr regNwords :: readAllWords n

/-- The words of the bit array, `W[0 .. NWORDS-1]` (R16). -/
def arrayWords (s : State) : List Word := (List.range s.nwords.toNat).map (readWord s.mem)

/-- The bytes a serializer writes for a word sequence: each word as four bytes, least significant first (R36, R158). -/
def serialBytes (ws : List Word) : List Byte := ws.flatMap fun w => (List.range 4).map (wordByte w)

end Sys2Proof.Machine
end

