-- ==== Sys2Proof/Machine/HostProcedures.lean ====
section
/-! DEFINITION. The host procedures of 44_host_procedures as far as the source settles them: how a host sends a procedure's
commands and what it reports to its caller (R157, log 15), `createEmpty` (R150 to R152), `add` and `test` (R154, R155),
`union` (R156), and the serialized record with its base64 field, `save` and `load` (R158 to R161). None of it is hardware (00_scope R4):
no step calls it, and no state holds it (log 14). -/

namespace Sys2Proof.Machine

/-! ## The source's errors (R157, 60_exceptions R172) -/

/-- The three errors a caller of the library sees. -/
inductive SourceError where
  | invalidArgument | incompatibleFilter | serializationError
  deriving DecidableEq, Repr

/-- The source error behind an engine code; none where the source has none (R157). -/
def sourceError : ErrorCode → Option SourceError
  | .ok => none
  | .invalidArg => some .invalidArgument
  | .incompatHashes => some .incompatibleFilter
  | .incompatSize => some .incompatibleFilter
  | .notConfigured => none
  | .range => none
  | .illegalCmd => none
  | .malformed => none

/-- What a procedure sends: its own error is raised, or its key rejected (R154), before any command, or it sends commands. -/
inductive HostPlan where
  | raise (e : SourceError)
  | reject
  | send (commands : List Instr)
  deriving DecidableEq, Repr

/-- What the caller is told at the end: success, a source error, a key that cannot be sent (R154; the spec names no error for
it, DESIGN CHOICE, log 15), or an engine code that has no source error (R157). -/
inductive Report where
  | done
  | error (e : SourceError)
  | keyRejected
  | engine (code : ErrorCode)
  deriving DecidableEq, Repr

/-- The error code a byte stands for; none from `0x08` on (R171). -/
def errorOfByte (b : Byte) : Option ErrorCode :=
  match b.toNat with
  | 0 => some .ok | 1 => some .invalidArg | 2 => some .incompatHashes | 3 => some .incompatSize
  | 4 => some .notConfigured | 5 => some .range | 6 => some .illegalCmd | 7 => some .malformed
  | _ => none

/-- The header of the response that a command has added to those offered before it (R62). -/
def answeredHeader (s t : State) : Option Word := t.rsp[s.rsp.length]?

/-- Its `ERR` field (R63). -/
def answeredError (s t : State) : Option ErrorCode :=
  (answeredHeader s t).bind fun h => errorOfByte (h.extractLsb' 16 8)

/-- Its `FLAG` bit (R63). -/
def answeredFlag (s t : State) : Option Bool := (answeredHeader s t).map fun h => h.getLsbD 0

/-- The result words after it (R64). -/
def answeredWords (s t : State) : List Word := t.rsp.drop (s.rsp.length + 1)

/-- Send commands one after the other, each after the answer to the one before, up to the first that answers an error
(DESIGN CHOICE, log 15): the code reported, the result words of those that succeeded, in order, and the engine afterwards;
none where the engine does not answer. -/
def converse : List Instr → State → Option (ErrorCode × List Word × State)
  | [], s => some (.ok, [], s)
  | i :: is, s =>
    match exec i s with
    | .next t =>
      match answeredError s t with
      | some .ok => (converse is t).map fun r => (r.1, answeredWords s t ++ r.2.1, r.2.2)
      | some e => some (e, [], t)
      | none => none
    | .fault _ => none
    | .refused _ => none

/-- The same for a host that needs no result words. -/
def sendAll (is : List Instr) (s : State) : Option (ErrorCode × State) :=
  (converse is s).map fun r => (r.1, r.2.2)

/-- The report of an engine code (R157). -/
def reportOf (e : ErrorCode) : Report :=
  match e, sourceError e with
  | .ok, _ => .done
  | _, some x => .error x
  | e, none => .engine e

/-- Run a procedure at an engine, with its own reading of the engine's code. -/
def runPlan (report : ErrorCode → Report) (p : HostPlan) (s : State) : Option (Report × State) :=
  match p with
  | .raise e => some (.error e, s)
  | .reject => some (.keyRejected, s)
  | .send is => (sendAll is s).map fun r => (report r.1, r.2)

/-! ## Reading a filter (R156, R158) -/

/-- Read a filter out of an engine: the hash count and the word count are what RDR answers, the words what RDW answers for
every index below that count; nothing else is sent between (44_host R162). No filter where a read answers an error. -/
def readFilter (s : State) : Option (Report × Option (Word × List Word) × State) :=
  match converse [.rdr regNhash, .rdr regNwords] s with
  | some (.ok, [k, n], t) =>
    match converse (readAllWords n.toNat) t with
    | some (.ok, ws, u) => some (.done, some (k, ws), u)
    | some (e, _, u) => some (reportOf e, none, u)
    | none => none
  | some (.ok, _, _) => none
  | some (e, _, t) => some (reportOf e, none, t)
  | none => none

/-! ## Creation (R150 to R152) -/

/-- The arguments `createEmpty` accepts (R151). -/
abbrev CreateLegal (capacity : Int) (errorRate : ℝ) : Prop := 0 < capacity ∧ 0 < errorRate ∧ errorRate < 1

/-- The formulas of R150 in exact arithmetic, with the host's own `round` (R153 leaves both open, log 14): which
`numBits`, `numHashes` and `n` belong to a capacity and an error rate. -/
def Sizing (round : ℝ → Int) (capacity : Int) (errorRate : ℝ) (numBits numHashes n : Int) : Prop :=
  numBits = ⌈-(capacity : ℝ) * Real.log errorRate / Real.log 2 ^ 2⌉ ∧
  numHashes = max 1 (round ((numBits : ℝ) / (capacity : ℝ) * Real.log 2)) ∧
  n = ⌈(numBits : ℝ) / 32⌉

/-- The command of `createEmpty` for sized operands. An operand that no 32-bit field holds is larger than every `N_MAX` or
`K_MAX` (R5), so the filter does not fit: InvalidArgument with no command sent (DEDUCED, log 15). -/
def createPlan (n numHashes : Int) : HostPlan :=
  if 0 ≤ n ∧ n < 2 ^ 32 ∧ 0 ≤ numHashes ∧ numHashes < 2 ^ 32 then
    .send (createMacro (BitVec.ofInt 32 n) (BitVec.ofInt 32 numHashes))
  else .raise .invalidArgument

/-- `createEmpty(capacity, errorRate)` (R152): validate, compute, send INIT. A relation, because the sizing formulas are
over real numbers; run it with `runPlan reportOf`. -/
def CreateEmpty (round : ℝ → Int) (capacity : Int) (errorRate : ℝ) (p : HostPlan) : Prop :=
  (¬ CreateLegal capacity errorRate ∧ p = .raise .invalidArgument) ∨
  (CreateLegal capacity errorRate ∧ ∃ numBits numHashes n,
    Sizing round capacity errorRate numBits numHashes n ∧ p = createPlan n numHashes)

/-! ## Keys (R154, R55) -/

/-- A key encoded to bytes: each byte is a symbol with a zero high part. -/
def keyOfBytes (bytes : List Byte) : List Sym := bytes.map fun b => b.setWidth 16

/-- A key the host can send; a longer one it must reject. -/
def keySendable (key : List Sym) : Bool := decide (key.length ≤ keyLenMax)

/-- Send one command with a key, unless the key is too long (R154). -/
def keyPlan (command : List Sym → Instr) (key : List Sym) : HostPlan :=
  if keySendable key then .send [command key] else .reject

/-- `add(key)` (R155). The encoding is the open host parameter `KEY_ENCODING` (R154). -/
def addKey (encoding : String → List Sym) (key : String) (s : State) : Option (Report × State) :=
  runPlan reportOf (keyPlan .add (encoding key)) s

/-- `test(key)` (R155): with success the Boolean is the `FLAG` bit of the response; there is none without. -/
def testKey (encoding : String → List Sym) (key : String) (s : State) : Option (Report × Option Bool × State) :=
  (runPlan reportOf (keyPlan .test (encoding key)) s).map fun r =>
    (r.1, if r.1 = .done then answeredFlag s r.2 else none, r.2)

/-! ## Base64, standard alphabet with padding (R159, PRESUMED, log 14)

The text is one line: encoding writes no line break, and decoding fails on one, as on every other character outside the
alphabet. DESIGN CHOICE, log 14: 91_not_in_source N11 leaves line breaks open. -/

/-- The digit for a number below 64: `A-Z a-z 0-9 + /`. -/
def base64Digit (v : Nat) : Char :=
  if v < 26 then Char.ofNat (65 + v)
  else if v < 52 then Char.ofNat (71 + v)
  else if v < 62 then Char.ofNat (v - 4)
  else if v = 62 then '+' else '/'

/-- The number of a digit. -/
def base64Value (c : Char) : Option Nat :=
  let u := c.toNat
  if 65 ≤ u ∧ u ≤ 90 then some (u - 65)
  else if 97 ≤ u ∧ u ≤ 122 then some (u - 71)
  else if 48 ≤ u ∧ u ≤ 57 then some (u + 4)
  else if u = 43 then some 62
  else if u = 47 then some 63
  else none

/-- Three bytes are four digits; one or two bytes left over are padded with `=`; no line breaks (DESIGN CHOICE, log 14). -/
def base64Encode : List Byte → List Char
  | [] => []
  | [a] => [base64Digit (a.toNat / 4), base64Digit (a.toNat % 4 * 16), '=', '=']
  | [a, b] =>
    [base64Digit (a.toNat / 4), base64Digit (a.toNat % 4 * 16 + b.toNat / 16), base64Digit (b.toNat % 16 * 4), '=']
  | a :: b :: c :: rest =>
    base64Digit (a.toNat / 4) :: base64Digit (a.toNat % 4 * 16 + b.toNat / 16) ::
      base64Digit (b.toNat % 16 * 4 + c.toNat / 64) :: base64Digit (c.toNat % 64) :: base64Encode rest

/-- The bytes of four digits, or of a last group with padding; the unused bits of a padded group are dropped
(DESIGN CHOICE, log 14). -/
def base64Group (c0 c1 c2 c3 : Char) : Option (List Byte) :=
  match base64Value c0, base64Value c1 with
  | some v0, some v1 =>
    match base64Value c2, base64Value c3 with
    | some v2, some v3 =>
      some [BitVec.ofNat 8 (v0 * 4 + v1 / 16), BitVec.ofNat 8 (v1 * 16 + v2 / 4), BitVec.ofNat 8 (v2 * 64 + v3)]
    | some v2, none =>
      if c3 = '=' then some [BitVec.ofNat 8 (v0 * 4 + v1 / 16), BitVec.ofNat 8 (v1 * 16 + v2 / 4)] else none
    | none, _ => if c2 = '=' ∧ c3 = '=' then some [BitVec.ofNat 8 (v0 * 4 + v1 / 16)] else none
  | _, _ => none

/-- The bytes of a base64 text; none where decoding fails: on padding before the last group, and on line breaks or any
other character outside the alphabet (DESIGN CHOICE, log 14). -/
def base64Decode : List Char → Option (List Byte)
  | [] => some []
  | [c0, c1, c2, c3] => base64Group c0 c1 c2 c3
  | c0 :: c1 :: c2 :: c3 :: rest =>
    match base64Group c0 c1 c2 c3, base64Decode rest with
    | some [x, y, z], some bytes => some (x :: y :: z :: bytes)
    | _, _ => none
  | _ => none

/-! ## The record (R158 to R160) -/

/-- The serialized form: the fields `num_hashes` and `buckets` (R159); the text around them is the host's (log 14). -/
structure Record where
  numHashes : Nat
  buckets : List Char
  deriving DecidableEq, Repr

/-- The record `save` emits for a hash count and the words read back (R158). -/
def saveRecord (k : Word) (ws : List Word) : Record :=
  { numHashes := k.toNat, buckets := base64Encode (serialBytes ws) }

/-- `save(filter)` (R158): the record of what was read; none where a read answers an error. An engine without a filter gives
the record of 0 hashes and no words (DEDUCED, log 15). -/
def save (s : State) : Option (Report × Option Record × State) :=
  (readFilter s).map fun r => (r.1, r.2.1.map fun f => saveRecord f.1 f.2, r.2.2)

/-- Little-endian words of a byte sequence; none where its length is no multiple of 4 (R159, R160). -/
def wordsOfBytes : List Byte → Option (List Word)
  | [] => some []
  | b0 :: b1 :: b2 :: b3 :: rest => (wordsOfBytes rest).map fun ws => wordOfBytes b0 b1 b2 b3 :: ws
  | _ => none

/-- The hash count and the words of a record, once the whole of it is validated (R160, R161); none is a bad record. A hash
count or word count that no operand can hold is one too (DESIGN CHOICE, log 14). -/
def recordContents (r : Record) : Option (Word × List Word) :=
  match (base64Decode r.buckets).bind wordsOfBytes with
  | none => none
  | some ws =>
    if r.numHashes < 2 ^ 32 ∧ ws.length < 2 ^ 32 then some (BitVec.ofNat 32 r.numHashes, ws) else none

/-- What a procedure sends for the contents of a record; a bad one is a SerializationError, for which nothing is sent
(R160, R161). -/
def recordPlan (plan : Word → List Word → HostPlan) (r : Record) : HostPlan :=
  match recordContents r with
  | some f => plan f.1 f.2
  | none => .raise .serializationError

/-- What `load` sends (R160). -/
def loadRecord (r : Record) : HostPlan := recordPlan (fun k ws => .send (loadMacro k ws)) r

/-- How `load` reports an engine code: `ERR_INVALID_ARG` for a record with `num_hashes = 0` or empty `buckets` is a
SerializationError (R160); every other code is read as R157 says. -/
def loadReport (r : Record) (e : ErrorCode) : Report :=
  if e = .invalidArg ∧ (r.numHashes = 0 ∨ r.buckets = []) then .error .serializationError else reportOf e

/-- `load(record)` (R160). -/
def load (r : Record) (s : State) : Option (Report × State) := runPlan (loadReport r) (loadRecord r) s

/-! ## Union (R156) -/

/-- What `union` sends for the other filter's hash count and words. A word count that `ON` cannot hold is larger than every
engine's `NWORDS` (R5), so the filters are incompatible, and nothing is sent (DEDUCED, log 15). -/
def unionPlan (k : Word) (ws : List Word) : HostPlan :=
  if ws.length < 2 ^ 32 then .send (unionMacro k ws) else .raise .incompatibleFilter

/-- `union` with the other filter's hash count and words at hand. -/
def union (k : Word) (ws : List Word) (s : State) : Option (Report × State) := runPlan reportOf (unionPlan k ws) s

/-- `union(other)` with the filter of another engine: it is read out first, and only read (R156). The report, the other
engine and this one. -/
def unionEngine (other s : State) : Option (Report × State × State) :=
  match readFilter other with
  | some (_, some f, o) => (union f.1 f.2 s).map fun r => (r.1, o, r.2)
  | some (report, none, o) => some (report, o, s)
  | none => none

/-- `union(other)` with the filter of a record (R156, "or from a loaded file"), whose text is validated as for `load`. A record
with `num_hashes = 0` or empty `buckets`, which R160 says cannot be loaded, is sent in MERGE like any other, and the engine's
code is reported: IncompatibleFilter on a configured engine (DESIGN CHOICE, log 15). -/
def unionRecord (r : Record) (s : State) : Option (Report × State) :=
  runPlan reportOf (recordPlan unionPlan r) s

end Sys2Proof.Machine
end

