-- ==== Sys2Proof/Safety.lean ====
section
/-! DEFINITION. What claims are stated in: the invariant of 10_state R15 and R16, a list of commands executed in order
(20_memory R40, 70_reset R205), the shape and the reserved bits of a packet in the numbers of 30_encoding R57 and R61, the
fields of a response (R63), and the safety predicate a host must accumulate from the responses (60_exceptions R178). -/

namespace Sys2Proof.Machine

/-! ## The invariant -/

/-- The registers are related as R15 (b) and (c) say. -/
abbrev RegistersLegal (s : State) : Prop :=
  (s.configured = false → s.nwords = 0 ∧ s.nhash = 0) ∧
    (s.configured = true →
      1 ≤ s.nwords.toNat ∧ s.nwords.toNat ≤ s.cfg.nMax ∧ 1 ≤ s.nhash.toNat ∧ s.nhash.toNat ≤ s.cfg.kMax)

/-- The array is in canonical form and holds only bytes of words of index below `NWORDS` (R16). -/
abbrev ArrayLegal (s : State) : Prop :=
  Memory.wf s.mem ∧ ∀ c ∈ s.mem, c.1 < 4 * s.nwords.toNat

/-- The invariant of the engine (R15, R16), with the constraints R5 puts on the configuration. -/
abbrev State.Inv (s : State) : Prop := s.cfg.Legal ∧ RegistersLegal s ∧ ArrayLegal s

/-! ## Runs -/

/-- Execute whole commands one after the other, each to completion (R205), with no port in between. -/
def execAll : List Instr → State → Result
  | [], s => .next s
  | i :: is, s =>
    match exec i s with
    | .next t => execAll is t
    | .fault f => .fault f
    | .refused r => .refused r

/-- The command is an INIT. -/
def isInit : Instr → Bool
  | .init _ _ => true
  | .add _ => false
  | .test _ => false
  | .loc _ => false
  | .hash _ _ => false
  | .merge _ _ _ => false
  | .rdw _ => false
  | .rdr _ => false
  | .bset _ => false
  | .btst _ => false

/-- The engine waits for a header word or for the rest of a packet: not in reset, no response pending (R205, R206). -/
abbrev Receiving (s : State) : Prop := s.rst = false ∧ s.rsp = []

/-- The words the engine has received or is offered and has not yet decoded. -/
abbrev pendingWords (s : State) : List Word := s.scratch ++ s.cmdIn

/-- A step that neither faults nor is refused. -/
def StepSafe (s : State) : Prop := ∃ t, step s = .next t

/-! ## Responses in numbers (R63) -/

/-- Bits 31:24 of a response header. -/
def responseOpc (h : Word) : Nat := h.toNat / 2 ^ 24

/-- Bits 23:16 of a response header. -/
def responseErr (h : Word) : Nat := h.toNat / 2 ^ 16 % 2 ^ 8

/-- Bits 15:1 of a response header. -/
def responseZero (h : Word) : Nat := h.toNat / 2 % 2 ^ 15

/-- Bit 0 of a response header. -/
def responseFlag (h : Word) : Nat := h.toNat % 2

/-- The command answered with error code 0: what "no error so far" is accumulated from (R178). -/
def Succeeded (s t : State) : Prop := ∃ h ws, t.rsp = s.rsp ++ h :: ws ∧ responseErr h = 0

/-- The response words by which an engine gives its filter away: RDR NHASH, RDR NWORDS, then RDW of every word (R158). -/
def filterAnswers (s : State) : List Word :=
  [0x08000000#32, s.nhash, 0x08000000#32, s.nwords] ++ (arrayWords s).flatMap fun w => [0x07000000#32, w]

/-! ## Packets in numbers (R57, R60, R61) -/

/-- `OPC` of a header word (R53). -/
def opcNumber (h : Word) : Nat := h.toNat / 2 ^ 24

/-- The opcode of a header word is unassigned (R60). -/
def OpcodeUnassigned (h : Word) : Prop := opcNumber h = 0 ∨ 11 ≤ opcNumber h

/-- `p` is the whole payload that the header `h` calls for (R57). -/
def PayloadOf (h : Word) (p : List Word) : Prop :=
  ((opcNumber h = 2 ∨ opcNumber h = 3 ∨ opcNumber h = 4) ∧ p.length = h.toNat % 2 ^ 16) ∨
  (opcNumber h = 5 ∧ p.length = 1 + h.toNat % 2 ^ 16) ∨
  ((opcNumber h = 7 ∨ opcNumber h = 9 ∨ opcNumber h = 10) ∧ p.length = 1) ∨
  (opcNumber h = 1 ∧ p.length = 2) ∨
  (opcNumber h = 8 ∧ p.length = 0) ∨
  (opcNumber h = 6 ∧ ∃ ok on ow, p = ok :: on :: ow ∧ ow.length = on.toNat)

/-- A reserved bit of a packet with an assigned opcode is set (R61 (a) to (d)). -/
def ReservedBitSet (h : Word) (p : List Word) : Prop :=
  h.toNat / 2 ^ 16 % 2 ^ 8 ≠ 0 ∨
  ((opcNumber h = 1 ∨ opcNumber h = 6 ∨ opcNumber h = 7 ∨ opcNumber h = 9 ∨ opcNumber h = 10) ∧
    h.toNat % 2 ^ 16 ≠ 0) ∨
  (opcNumber h = 8 ∧ h.toNat / 2 ^ 8 % 2 ^ 8 ≠ 0) ∨
  ((opcNumber h = 2 ∨ opcNumber h = 3 ∨ opcNumber h = 4) ∧ ∃ w ∈ p, 2 ^ 16 ≤ w.toNat) ∨
  (opcNumber h = 5 ∧ ∃ w ∈ p.drop 1, 2 ^ 16 ≤ w.toNat)

/-! ## The hash in numbers (R82, R84) -/

/-- `u32(a * 16777619)` (R82). -/
def fnvNumber (a : Word) : Word := BitVec.ofNat 32 (a.toNat * 16777619 % 2 ^ 32)

/-- The fold of R84 on the number of the symbol: `hi = c div 256`, `lo = c mod 256`. -/
def foldNumber (acc : Word) (c : Sym) : Word :=
  if c.toNat / 256 = 0 then fnvNumber (acc ^^^ BitVec.ofNat 32 (c.toNat % 256))
  else fnvNumber (fnvNumber (acc ^^^ BitVec.ofNat 32 (c.toNat / 256)) ^^^ BitVec.ofNat 32 (c.toNat % 256))

/-- `fnv1a` of R85 over `foldNumber`. -/
def fnv1aNumber (mix : MixChoice) (key : List Sym) (seed : Word) : Word :=
  applyMix mix (key.foldl foldNumber (0x811C9DC5#32 ^^^ seed))

/-! ## Locations in closed form (R102, R104) -/

/-- `x_i = (A + i * B) mod m` (R104) for the digests of a key read as R102 says. -/
def closedLocation (cfg : Config) (m : Nat) (key : List Sym) (i : Nat) : Nat :=
  let a := digestInt cfg.signedDigest (fnv1aNumber cfg.mix key 0#32)
  let b := digestInt cfg.signedDigest (fnv1aNumber cfg.mix key 0x5DF43149#32)
  ((a + (i : Int) * b) % (m : Int)).toNat

end Sys2Proof.Machine
end

