-- ==== Sys2Proof/Certificates/Slice0/Obligations.lean ====
section
/-! DEFINITION. The statements about the engine, taken from the numbered rules of spec/. Response words are written out
as the spec gives them (30_encoding R63, 60_exceptions R171); `State.Inv` (10_state R15, R16) rules out states that no run
reaches, and is itself stated of reset and of every step. -/

open Sys2Proof Sys2Proof.Machine

/-! ## Packets -/

/-- R65: encoding a command term and decoding the words gives the term back, whatever words follow. -/
def Obligations.EncodedCommandDecodesToItself : Prop :=
  ∀ (i : Instr) (rest : List Word), i.WellFormed = true →
    decode (encode i ++ rest) = some (.command i, rest)

/-- R65: decoding and re-encoding gives the same words, so every command has exactly one packet, and only
well-formed terms come out of the decoder. -/
def Obligations.DecodedCommandIsItsPacket : Prop :=
  ∀ (ws rest : List Word) (i : Instr), decode ws = some (.command i, rest) →
    i.WellFormed = true ∧ ws = encode i ++ rest

/-- R66: a stream of whole command packets, then words that make no whole packet, decodes to those commands in order
and holds back those words. -/
def Obligations.StreamDecodesPacketByPacket : Prop :=
  ∀ (is : List Instr) (left : List Word), (∀ i ∈ is, i.WellFormed = true) → decode left = none →
    decodeStream (is.flatMap encode ++ left) = (is.map Packet.command, left)

/-- R57, R59, R61: a whole packet of an assigned opcode is malformed exactly when a reserved bit is set, and is else a
command of that opcode; either way exactly the payload of R57 is consumed. -/
def Obligations.WholePacketIsCommandOrMalformed : Prop :=
  ∀ (h : Word) (p rest : List Word), PayloadOf h p →
    (ReservedBitSet h p → decode (h :: p ++ rest) = some (.malformed (BitVec.ofNat 8 (opcNumber h)), rest)) ∧
    (¬ ReservedBitSet h p → ∃ i, decode (h :: p ++ rest) = some (.command i, rest) ∧
      (opCode (opOf i)).toNat = opcNumber h)

/-- R58, R67: packets written out from the spec decode to the commands they stand for (one per format and family). -/
def Obligations.SpecPacketsDecode : Prop :=
  decode [0x01000000#32, 3#32, 5#32] = some (.command (.init 3 5), []) ∧
  decode [0x02000003#32, 0x61#32, 0x62#32, 0x63#32] = some (.command (.add [0x61, 0x62, 0x63]), []) ∧
  decode [0x05000001#32, 0x5DF43149#32, 0x20AC#32] = some (.command (.hash 0x5DF43149 [0x20AC]), []) ∧
  decode [0x06000000#32, 7#32, 2#32, 8#32, 9#32, 0x08000003#32] =
    some (.command (.merge 7 2 [8, 9]), [0x08000003#32]) ∧
  decode [0x07000000#32, 1#32] = some (.command (.rdw 1), []) ∧
  decode [0x080000FF#32] = some (.command (.rdr 0xFF), []) ∧
  decode [0x0A000000#32, 37#32] = some (.command (.btst 37), [])

/-- R60: an unassigned opcode consumes its one word, changes nothing else, and is answered by `ERR_ILLEGAL_CMD` with
the opcode echoed. -/
def Obligations.IllegalOpcodeIsAnswered : Prop :=
  ∀ (s : State) (h : Word) (ws : List Word), Receiving s → pendingWords s = h :: ws → OpcodeUnassigned h →
    step s = .next { s with
      scratch := [], cmdIn := ws, rsp := [BitVec.ofNat 32 (opcNumber h * 2 ^ 24 + 0x060000)] }

/-- R61: a malformed packet is consumed whole, executed in no part whatever the state is, and answered by
`ERR_MALFORMED`. -/
def Obligations.MalformedPacketIsAnswered : Prop :=
  ∀ (s : State) (h : Word) (p rest : List Word), Receiving s → pendingWords s = h :: p ++ rest →
    PayloadOf h p → ReservedBitSet h p →
    step s = .next { s with
      scratch := [], cmdIn := rest, rsp := [BitVec.ofNat 32 (opcNumber h * 2 ^ 24 + 0x070000)] }

/-- R207: while words of a packet are missing the engine takes what it is offered and does nothing else; when the host
sends the missing words, the packet is treated as if it had come at once. -/
def Obligations.IncompletePacketIsHeld : Prop :=
  ∀ (s : State) (h : Word) (p q : List Word), Receiving s → PayloadOf h (p ++ q) → q ≠ [] →
    pendingWords s = h :: p →
    step s = .next { s with scratch := h :: p, cmdIn := [] } ∧
    ∀ rest : List Word, step (hostSend (q ++ rest) { s with scratch := h :: p, cmdIn := [] }) =
      step { s with scratch := [], cmdIn := h :: (p ++ q) ++ rest }

/-! ## Ports, reset, order -/

/-- R8, R205: when the words at the command port decode to a command, the step is that command's execution, with the
packet consumed (scratch empty, the words after it still offered). -/
def Obligations.StepRunsTheDecodedCommand : Prop :=
  ∀ (s : State) (i : Instr) (rest : List Word), Receiving s → decode (pendingWords s) = some (.command i, rest) →
    step s = exec i { s with scratch := [], cmdIn := rest }

/-- R51, R206: a pending response is held, with nothing else happening, until the host is ready; then one word moves. -/
def Obligations.ResponseIsHeldUntilAccepted : Prop :=
  ∀ (s : State) (w : Word) (ws : List Word), s.rst = false → s.rsp = w :: ws →
    (s.rspReady = false → step s = .next s) ∧
    (s.rspReady = true → step s = .next { s with rsp := ws, rspStream := s.rspStream ++ [w] })

/-- R20: the state after reset. -/
def Obligations.ResetStateIsAsSpecified : Prop :=
  State.reset.configured = false ∧ statusWord State.reset = 0 ∧ State.reset.nwords = 0 ∧ mbits State.reset = 0 ∧
  State.reset.nhash = 0 ∧ State.reset.mem = [] ∧ State.reset.scratch = [] ∧ State.reset.rsp = []

/-- R200, R202, R203: while `rst` is 1 a step gives the reset state whatever the engine was doing, accepts no command
word, offers no response word and adds none to the response stream; when `rst` falls the first word offered is a
header. That the configuration, the pins and the host's two streams stay as they are is the model's choice (log 8). -/
def Obligations.ResetPinGivesTheResetState : Prop :=
  ∀ s : State, s.rst = true →
    ∃ t, step s = .next t ∧
      t = { s with configured := false, nwords := 0, nhash := 0, mem := [], scratch := [], rsp := [] } ∧
      mbits t = 0 ∧ cmdReady t = false ∧ rspValid t = false ∧
      pendingWords (hostReset false t) = s.cmdIn

/-- R206, R62: a whole command packet is executed and answered in finite time when the host accepts every response
word: after one step and one more for each response word the engine waits for the next header, and the response has
moved across the port. -/
def Obligations.CommandRunsToItsLastResponseWord : Prop :=
  ∀ (s t : State) (i : Instr) (rest : List Word), Receiving s → s.rspReady = true → i.WellFormed = true →
    pendingWords s = encode i ++ rest → exec i { s with scratch := [], cmdIn := rest } = .next t →
    Host.Core.run core (1 + t.rsp.length) s =
      .next { t with rsp := [], rspStream := s.rspStream ++ t.rsp }

/-- R40, R205, R210: a stream of whole packets has the effect of its commands executed one after the other in the order
of their headers, each seeing every earlier one, and the response stream is the commands' responses in that order. -/
def Obligations.CommandStreamRunsInOrder : Prop :=
  ∀ (is : List Instr) (s t : State) (rest : List Word), Receiving s → s.rspReady = true → s.scratch = [] →
    s.cmdIn = is.flatMap encode ++ rest → (∀ i ∈ is, i.WellFormed = true) →
    execAll is { s with cmdIn := rest } = .next t →
    ∃ k, Host.Core.run core k s = .next { t with rsp := [], rspStream := s.rspStream ++ t.rsp }

/-! ## The invariant and what every command keeps -/

/-- The invariant (R15, R16) holds at reset, whatever legal configuration the engine has. -/
def Obligations.InvariantHoldsAtReset : Prop :=
  State.reset.Inv ∧ ∀ c : Config, c.Legal → ({ State.reset with cfg := c } : State).Inv

/-- R15, R16: every step keeps the invariant: the registers stay legal, and the array stays in canonical form and
inside `NWORDS` words. -/
def Obligations.StepKeepsInvariant : Prop :=
  ∀ s t : State, s.Inv → step s = .next t → t.Inv

/-- R8, R206: in every state that meets the invariant a step answers a next state: it never faults and is never
refused. -/
def Obligations.StepNeverStops : Prop := ∀ s : State, s.Inv → StepSafe s

/-- R15 (d) and (e), R14: out of reset `CONFIGURED` never falls, and it, `NWORDS` and `NHASH` change only in a step that
executes an INIT whose operands are legal. -/
def Obligations.OnlyInitChangesTheRegisters : Prop :=
  ∀ s t : State, s.rst = false → step s = .next t →
    (s.configured = true → t.configured = true) ∧
    ((t.configured = s.configured ∧ t.nwords = s.nwords ∧ t.nhash = s.nhash) ∨
      ∃ n k rest, Receiving s ∧ decode (pendingWords s) = some (.command (.init n k), rest) ∧
        1 ≤ n.toNat ∧ n.toNat ≤ s.cfg.nMax ∧ 1 ≤ k.toNat ∧ k.toNat ≤ s.cfg.kMax ∧
        t.configured = true ∧ t.nwords = n ∧ t.nhash = k)

/-- R17, R112: between two INITs or resets no bit ever changes from 1 to 0, over any number of commands. -/
def Obligations.SetBitsStaySet : Prop :=
  ∀ (is : List Instr) (s t : State), s.Inv → (∀ i ∈ is, isInit i = false ∧ i.WellFormed = true) →
    execAll is s = .next t →
    ∀ w : Nat, readWord s.mem w &&& readWord t.mem w = readWord s.mem w

/-- R14, R18, R21: the frame of all ten commands: a command never changes the configuration, the pins, the scratch, the
offered command words or the words already moved, and every command but INIT leaves `CONFIGURED`, `NWORDS` and `NHASH`
as they are. -/
def Obligations.CommandsLeaveRegistersAndPorts : Prop :=
  ∀ (i : Instr) (s t : State), exec i s = .next t →
    (t.cfg = s.cfg ∧ t.scratch = s.scratch ∧ t.rst = s.rst ∧ t.cmdIn = s.cmdIn ∧ t.rspReady = s.rspReady ∧
      t.rspStream = s.rspStream) ∧
    (isInit i = false → t.configured = s.configured ∧ t.nwords = s.nwords ∧ t.nhash = s.nhash)

/-- R38: TEST, BTST, RDW, RDR, LOC and HASH change nothing but the offered response, and repeated at once they answer the
same words. -/
def Obligations.ReadersChangeNothing : Prop :=
  ∀ (i : Instr) (s t : State),
    ((∃ key, i = .test key) ∨ (∃ idx, i = .btst idx) ∨ (∃ idx, i = .rdw idx) ∨ (∃ reg, i = .rdr reg) ∨
      (∃ key, i = .loc key) ∨ (∃ seed key, i = .hash seed key)) →
    exec i s = .next t →
    ∃ r, t = { s with rsp := s.rsp ++ r } ∧ exec i t = .next { s with rsp := s.rsp ++ r ++ r }

/-- R38, R42: ADD, BSET and MERGE are idempotent: executing the same command again changes nothing but the offered
response, which is the same again. -/
def Obligations.WritersAreIdempotent : Prop :=
  ∀ (i : Instr) (s t : State), s.Inv → i.WellFormed = true →
    ((∃ key, i = .add key) ∨ (∃ idx, i = .bset idx) ∨ (∃ ok on ow, i = .merge ok on ow)) →
    exec i s = .next t →
    ∃ h, t.rsp = s.rsp ++ [h] ∧ exec i t = .next { t with rsp := t.rsp ++ [h] }

/-! ## Responses and errors -/

/-- R62, R63, R64: every executed command adds exactly one response: its opcode echoed, bits 15:1 zero, `FLAG` 1 only
for a successful TEST or BTST, and the result words of R64 on success and none on an error. -/
def Obligations.OneResponsePerCommand : Prop :=
  ∀ (i : Instr) (s t : State), exec i s = .next t →
    ∃ h ws, t.rsp = s.rsp ++ h :: ws ∧ responseOpc h = (opCode (opOf i)).toNat ∧ responseZero h = 0 ∧
      (responseFlag h = 1 → responseErr h = 0 ∧ ((∃ key, i = .test key) ∨ ∃ idx, i = .btst idx)) ∧
      (responseErr h ≠ 0 → ws = []) ∧
      (responseErr h = 0 → ws.length =
        match i with
        | .init _ _ => 0 | .add _ => 0 | .test _ => 0 | .merge _ _ _ => 0 | .bset _ => 0 | .btst _ => 0
        | .loc _ => s.nhash.toNat
        | .hash _ _ => 1 | .rdw _ => 1 | .rdr _ => 1)

/-- R170, R176: a command that answers with a nonzero error code has changed nothing: the state after is the state
before with one header word offered, whose `FLAG` is 0. -/
def Obligations.ErrorChangesNothing : Prop :=
  ∀ (i : Instr) (s t : State) (h : Word) (ws : List Word), exec i s = .next t → t.rsp = s.rsp ++ h :: ws →
    responseErr h ≠ 0 → ws = [] ∧ responseFlag h = 0 ∧ t = { s with rsp := s.rsp ++ [h] }

/-- R179: which command can answer with which error code; `ERR_ILLEGAL_CMD` and `ERR_MALFORMED` come from no executed
command, and codes 8 and above from none at all (R171). -/
def Obligations.ErrorMatrixHolds : Prop :=
  ∀ (i : Instr) (s t : State) (h : Word) (ws : List Word), exec i s = .next t → t.rsp = s.rsp ++ h :: ws →
    responseErr h = 0 ∨
    match i with
    | .init _ _ => responseErr h = 1
    | .add _ => responseErr h = 4
    | .test _ => responseErr h = 4
    | .loc _ => responseErr h = 4
    | .hash _ _ => False
    | .merge _ _ _ => responseErr h = 4 ∨ responseErr h = 2 ∨ responseErr h = 3
    | .rdw _ => responseErr h = 4 ∨ responseErr h = 5
    | .rdr _ => responseErr h = 5
    | .bset _ => responseErr h = 4 ∨ responseErr h = 5
    | .btst _ => responseErr h = 4 ∨ responseErr h = 5

/-- R173: while not configured, ADD, TEST, LOC, MERGE, RDW, BSET and BTST answer `ERR_NOT_CONFIGURED` and change nothing;
INIT, RDR and HASH never answer it. -/
def Obligations.UnconfiguredEngineAnswersNotConfigured : Prop :=
  (∀ s : State, s.configured = false →
    (∀ key, exec (.add key) s = .next { s with rsp := s.rsp ++ [0x02040000#32] }) ∧
    (∀ key, exec (.test key) s = .next { s with rsp := s.rsp ++ [0x03040000#32] }) ∧
    (∀ key, exec (.loc key) s = .next { s with rsp := s.rsp ++ [0x04040000#32] }) ∧
    (∀ ok on ow, exec (.merge ok on ow) s = .next { s with rsp := s.rsp ++ [0x06040000#32] }) ∧
    (∀ idx, exec (.rdw idx) s = .next { s with rsp := s.rsp ++ [0x07040000#32] }) ∧
    (∀ idx, exec (.bset idx) s = .next { s with rsp := s.rsp ++ [0x09040000#32] }) ∧
    (∀ idx, exec (.btst idx) s = .next { s with rsp := s.rsp ++ [0x0A040000#32] })) ∧
  (∀ (i : Instr) (s t : State) (h : Word) (ws : List Word), exec i s = .next t → t.rsp = s.rsp ++ h :: ws →
    ((∃ n k, i = .init n k) ∨ (∃ reg, i = .rdr reg) ∨ ∃ seed key, i = .hash seed key) → responseErr h ≠ 4)

/-- The model's own stop (log 9): ADD, TEST and LOC fault in a state that is configured and has no word, which the
invariant rules out. -/
def Obligations.ConfiguredWithoutWordsFaults : Prop :=
  ∀ (s : State) (key : List Sym), s.configured = true → s.nwords = 0 →
    exec (.add key) s = .fault .remainderByZero ∧ exec (.test key) s = .fault .remainderByZero ∧
    exec (.loc key) s = .fault .remainderByZero

/-! ## The ten commands -/

/-- R130, R131: INIT with legal operands makes an empty filter of the new geometry in every state; with an illegal
operand it answers `ERR_INVALID_ARG` and changes nothing. That words at and beyond `n` read 0 too is the model's choice
(log 2). -/
def Obligations.InitCreatesAnEmptyFilter : Prop :=
  ∀ (n k : Word) (s : State),
    (1 ≤ n.toNat → n.toNat ≤ s.cfg.nMax → 1 ≤ k.toNat → k.toNat ≤ s.cfg.kMax →
      ∃ t, exec (.init n k) s = .next t ∧
        t = { s with configured := true, nwords := n, nhash := k, mem := t.mem, rsp := s.rsp ++ [0x01000000#32] } ∧
        mbits t = 32 * n.toNat ∧ Memory.wf t.mem ∧ (∀ w, readWord t.mem w = 0) ∧ ∀ a, Memory.read t.mem a = 0) ∧
    (n.toNat = 0 ∨ s.cfg.nMax < n.toNat ∨ k.toNat = 0 ∨ s.cfg.kMax < k.toNat →
      exec (.init n k) s = .next { s with rsp := s.rsp ++ [0x01010000#32] })

/-- R132: ADD sets exactly the bits of the key's location sequence (R104) and leaves every other bit, every byte
outside the words of the locations, and every register as they were. -/
def Obligations.AddSetsTheKeysBits : Prop :=
  ∀ (key : List Sym) (s : State), s.Inv → s.configured = true →
    ∃ t, exec (.add key) s = .next t ∧
      t = { s with mem := t.mem, rsp := s.rsp ++ [0x02000000#32] } ∧
      (∀ b, bitTest t.mem b = true ↔
        bitTest s.mem b = true ∨ ∃ i, i < s.nhash.toNat ∧ b = closedLocation s.cfg (mbits s) key i) ∧
      (∀ a, (∀ x ∈ keyLocations s key, a / 4 ≠ bitWord x) → Memory.read t.mem a = Memory.read s.mem a)

/-- R134, R135 (a): TEST answers `FLAG = 1` exactly when every bit of the key's location sequence is set, and changes
nothing. -/
def Obligations.TestAnswersTheConjunction : Prop :=
  ∀ (key : List Sym) (s : State), s.Inv → s.configured = true →
    ((∀ i, i < s.nhash.toNat → bitTest s.mem (closedLocation s.cfg (mbits s) key i) = true) →
      exec (.test key) s = .next { s with rsp := s.rsp ++ [0x03000001#32] }) ∧
    ((∃ i, i < s.nhash.toNat ∧ bitTest s.mem (closedLocation s.cfg (mbits s) key i) = false) →
      exec (.test key) s = .next { s with rsp := s.rsp ++ [0x03000000#32] })

/-- R105, R104: LOC answers the `NHASH` locations `(A + i * B) mod MBITS` in order and changes nothing. -/
def Obligations.LocAnswersTheLocations : Prop :=
  ∀ (key : List Sym) (s : State), s.Inv → s.configured = true →
    exec (.loc key) s = .next { s with rsp := s.rsp ++ (0x04000000#32 ::
      (List.range s.nhash.toNat).map (fun i => BitVec.ofNat 32 (closedLocation s.cfg (mbits s) key i))) }

/-- R87, R84, R85: HASH answers `fnv1a(key, seed)` in every state and changes nothing. -/
def Obligations.HashAnswersTheDigest : Prop :=
  ∀ (seed : Word) (key : List Sym) (s : State),
    exec (.hash seed key) s =
      .next { s with rsp := s.rsp ++ [0x05000000#32, fnv1aNumber s.cfg.mix key seed] }

/-- R136, R113: MERGE with the engine's own hash count and word count ORs the operand into the array word by word; else
it answers `ERR_INCOMPAT_HASHES`, or `ERR_INCOMPAT_SIZE` when only the size differs, and merges nothing. -/
def Obligations.MergeOrsTheOperandWordByWord : Prop :=
  ∀ (ok on : Word) (ow : List Word) (s : State), s.Inv → s.configured = true → ow.length = on.toNat →
    (ok = s.nhash → on = s.nwords →
      ∃ t, exec (.merge ok on ow) s = .next t ∧
        t = { s with mem := t.mem, rsp := s.rsp ++ [0x06000000#32] } ∧
        (∀ w, readWord t.mem w =
          if w < s.nwords.toNat then readWord s.mem w ||| ow.getD w 0 else readWord s.mem w) ∧
        (∀ a, 4 * s.nwords.toNat ≤ a → Memory.read t.mem a = Memory.read s.mem a)) ∧
    (ok ≠ s.nhash → exec (.merge ok on ow) s = .next { s with rsp := s.rsp ++ [0x06020000#32] }) ∧
    (ok = s.nhash → on ≠ s.nwords → exec (.merge ok on ow) s = .next { s with rsp := s.rsp ++ [0x06030000#32] })

/-- R117, R36: RDW answers the word, which is the four bytes of the byte view, least significant first; an index at or
beyond `NWORDS` answers `ERR_RANGE`. Nothing changes. -/
def Obligations.RdwAnswersTheWord : Prop :=
  ∀ (idx : Word) (s : State), s.configured = true →
    (idx.toNat < s.nwords.toNat → ∃ v : Word,
      exec (.rdw idx) s = .next { s with rsp := s.rsp ++ [0x07000000#32, v] } ∧
      ∀ j, j < 4 → v.toNat / 2 ^ (8 * j) % 2 ^ 8 = (Memory.read s.mem (4 * idx.toNat + j)).toNat) ∧
    (s.nwords.toNat ≤ idx.toNat → exec (.rdw idx) s = .next { s with rsp := s.rsp ++ [0x07050000#32] })

/-- R140, R13: RDR answers the named register in every state, configured or not; register numbers from 4 on answer
`ERR_RANGE`. Under the invariant the `MBITS` word is `32 * NWORDS` without overflow. Nothing changes. -/
def Obligations.RdrAnswersTheRegister : Prop :=
  ∀ (reg : Byte) (s : State), s.Inv →
    (reg.toNat = 0 → exec (.rdr reg) s =
      .next { s with rsp := s.rsp ++ [0x08000000#32, if s.configured then 1#32 else 0#32] }) ∧
    (reg.toNat = 1 → exec (.rdr reg) s = .next { s with rsp := s.rsp ++ [0x08000000#32, s.nwords] }) ∧
    (reg.toNat = 2 → ∃ v : Word, v.toNat = 32 * s.nwords.toNat ∧
      exec (.rdr reg) s = .next { s with rsp := s.rsp ++ [0x08000000#32, v] }) ∧
    (reg.toNat = 3 → exec (.rdr reg) s = .next { s with rsp := s.rsp ++ [0x08000000#32, s.nhash] }) ∧
    (4 ≤ reg.toNat → exec (.rdr reg) s = .next { s with rsp := s.rsp ++ [0x08050000#32] })

/-- R115, R111: BSET sets exactly the named bit; every other bit and every byte outside its word is as before. An index
at or beyond `MBITS` answers `ERR_RANGE` and changes nothing. -/
def Obligations.BsetSetsExactlyOneBit : Prop :=
  ∀ (idx : Word) (s : State), s.Inv → s.configured = true →
    (idx.toNat < 32 * s.nwords.toNat →
      ∃ t, exec (.bset idx) s = .next t ∧
        t = { s with mem := t.mem, rsp := s.rsp ++ [0x09000000#32] } ∧
        (∀ b, bitTest t.mem b = true ↔ bitTest s.mem b = true ∨ b = idx.toNat) ∧
        (∀ a, a / 4 ≠ bitWord idx.toNat → Memory.read t.mem a = Memory.read s.mem a)) ∧
    (32 * s.nwords.toNat ≤ idx.toNat → exec (.bset idx) s = .next { s with rsp := s.rsp ++ [0x09050000#32] })

/-- R116, R110: BTST answers in `FLAG` bit `idx mod 32` of word `idx div 32`, or `ERR_RANGE`, and changes nothing. -/
def Obligations.BtstAnswersTheBit : Prop :=
  ∀ (idx : Word) (s : State), s.configured = true →
    (idx.toNat < 32 * s.nwords.toNat →
      exec (.btst idx) s = .next { s with rsp := s.rsp ++
        [BitVec.ofNat 32 (0x0A000000 + (readWord s.mem (idx.toNat / 32)).toNat / 2 ^ (idx.toNat % 32) % 2)] }) ∧
    (32 * s.nwords.toNat ≤ idx.toNat → exec (.btst idx) s = .next { s with rsp := s.rsp ++ [0x0A050000#32] })

/-! ## The hash mixer -/

/-- R82: `fnvMultiply` is the product modulo `2^32`, equals the shift-and-add form, is a bijection, and has the corner
values the rule gives. -/
def Obligations.FnvMultiplyIsShiftAndAdd : Prop :=
  (∀ a : Word, (fnvMultiply a).toNat = a.toNat * 16777619 % 2 ^ 32 ∧
    fnvMultiply a = a + (a <<< 1) + (a <<< 4) + (a <<< 7) + (a <<< 8) + (a <<< 24)) ∧
  Function.Bijective fnvMultiply ∧
  fnvMultiply 0 = 0 ∧ fnvMultiply 1 = 0x01000193 ∧ fnvMultiply 0x80000000 = 0x80000000 ∧
  fnvMultiply 0xFFFFFFFF = 0xFEFFFE6D

/-- R83: the stated default mix is a bijection of the 32-bit words (a property of the default only). -/
def Obligations.StatedMixIsBijective : Prop := Function.Bijective mixStated

/-- R86 (b), (c): for every mix and seed, a symbol with a nonzero high part hashes like its high part and its low part
as two symbols, wherever it stands in the key. -/
def Obligations.WideSymbolHashesAsTwoSymbols : Prop :=
  ∀ (mix : MixChoice) (pre post : List Sym) (c : Sym) (seed : Word), 256 ≤ c.toNat →
    fnv1a mix (pre ++ c :: post) seed =
      fnv1a mix (pre ++ BitVec.ofNat 16 (c.toNat / 256) :: BitVec.ofNat 16 (c.toNat % 256) :: post) seed

/-- R86 (a): for keys of byte symbols the accumulator with seed 0 is the XOR-then-multiply loop over the bytes from the
standard offset basis. -/
def Obligations.ByteKeysHashAsStandardFnv : Prop :=
  ∀ key : List Sym, (∀ c ∈ key, c.toNat < 256) →
    fnvAccumulate key 0 =
      key.foldl (fun acc c => BitVec.ofNat 32 ((acc ^^^ c.setWidth 32).toNat * 16777619)) 0x811C9DC5#32

/-- R86 (d): under the stated default mix, two different seeds give two different digests of the same key. -/
def Obligations.DifferentSeedsGiveDifferentDigests : Prop :=
  ∀ (key : List Sym) (seed1 seed2 : Word), seed1 ≠ seed2 →
    fnv1a .stated key seed1 ≠ fnv1a .stated key seed2

/-! ## The location generator -/

/-- R100: exactly `k` indices, each in `[0, m)`, for both readings of the digests and every mix. -/
def Obligations.LocationsAreInRange : Prop :=
  ∀ (cfg : Config) (m k : Nat) (key : List Sym), 0 < m →
    (locations cfg m k key).length = k ∧ ∀ x ∈ locations cfg m k key, x < m

/-- R103, R104: the loop with the exact sum gives `x_i = (A + i * B) mod m`. -/
def Obligations.LocationsHaveTheClosedForm : Prop :=
  ∀ (cfg : Config) (m k : Nat) (key : List Sym), 0 < m →
    locations cfg m k key = (List.range k).map (closedLocation cfg m key)

/-- R104 (d), (e): when `m` is a power of two the signed and the unsigned reading give the same sequence. -/
def Obligations.SignednessIsInvisibleForPowersOfTwo : Prop :=
  ∀ (a b : Word) (e k : Nat), e ≤ 32 → locationsOf true a b (2 ^ e) k = locationsOf false a b (2 ^ e) k

/-- R104 (b): the location sequence repeats with period `m / gcd(B mod m, m)`. -/
def Obligations.LocationsRepeatWithThePeriod : Prop :=
  ∀ (cfg : Config) (m i : Nat) (key : List Sym), 0 < m →
    closedLocation cfg m key (i + m / Nat.gcd
      (floorMod (digestInt cfg.signedDigest (digestB cfg.mix key)) m) m) = closedLocation cfg m key i

/-- R103: keeping `Bm = B mod m` and subtracting `m` once when the sum reaches it gives the same next index. -/
def Obligations.SubtractingGeneratorAgrees : Prop :=
  ∀ (m x : Nat) (b : Int), x < m →
    floorMod (x + b) m = if m ≤ x + floorMod b m then x + floorMod b m - m else x + floorMod b m

/-! ## The bit array -/

/-- R31, R36: bit `b` of the array is bit `b mod 8` of byte `b div 8` of the byte view, and the serialized bytes of the
array are the byte view of its `4 * NWORDS` bytes in order. That memory is held as the byte view is log 1. -/
def Obligations.ByteViewIsLittleEndian : Prop :=
  (∀ (m : List Host.Cell) (b : Nat), bitTest m b = (Memory.read m (b / 8)).getLsbD (b % 8)) ∧
  ∀ s : State, serialBytes (arrayWords s) = (List.range (4 * s.nwords.toNat)).map (Memory.read s.mem)

/-- R134, R130: on a freshly initialised filter TEST of every key answers 0. -/
def Obligations.FreshFilterContainsNoKey : Prop :=
  ∀ (s t : State) (n k : Word) (key : List Sym), 1 ≤ n.toNat → n.toNat ≤ s.cfg.nMax → 1 ≤ k.toNat →
    k.toNat ≤ s.cfg.kMax → exec (.init n k) s = .next t →
    exec (.test key) t = .next { t with rsp := t.rsp ++ [0x03000000#32] }

/-! ## Whole-engine results -/

/-- R135 (b), R17: no false negatives: after a successful ADD of a key, TEST of that key answers 1 whatever commands but
INIT came between, for every mix and both readings of the digests. -/
def Obligations.NoFalseNegatives : Prop :=
  ∀ (s t u : State) (key : List Sym) (is : List Instr), s.Inv → s.configured = true →
    exec (.add key) s = .next t → (∀ i ∈ is, isInit i = false ∧ i.WellFormed = true) → execAll is t = .next u →
    exec (.test key) u = .next { u with rsp := u.rsp ++ [0x03000001#32] }

/-- R137 (b): after a successful UNION with the words of a filter of the same geometry, mix and reading of the digests
(whatever storage either engine has), every key that either filter reports present is reported present. -/
def Obligations.UnionKeepsEveryKey : Prop :=
  ∀ (s o : State) (key : List Sym), s.Inv → o.Inv → s.configured = true → o.configured = true →
    s.cfg.mix = o.cfg.mix → s.cfg.signedDigest = o.cfg.signedDigest → s.nwords = o.nwords → s.nhash = o.nhash →
    (exec (.test key) s = .next { s with rsp := s.rsp ++ [0x03000001#32] } ∨
      exec (.test key) o = .next { o with rsp := o.rsp ++ [0x03000001#32] }) →
    ∃ t, execAll (unionMacro o.nhash (arrayWords o)) s = .next t ∧
      exec (.test key) t = .next { t with rsp := t.rsp ++ [0x03000001#32] }

/-- R158, R68: SAVE answers the hash count, the word count and every word in order, and changes nothing. -/
def Obligations.SaveReadsTheWholeFilter : Prop :=
  ∀ s : State, s.configured = true →
    execAll (saveMacro s.nwords.toNat) s = .next { s with rsp := s.rsp ++
      [0x08000000#32, s.nhash, 0x08000000#32, s.nwords] ++ (arrayWords s).flatMap (fun w => [0x07000000#32, w]) }

/-- R160, R161: loading the hash count and the words of a filter into any engine whose limits it fits gives back the
filter exactly: the same registers and the same array. -/
def Obligations.LoadRestoresTheSavedFilter : Prop :=
  ∀ s r : State, s.Inv → s.configured = true →
    s.nwords.toNat ≤ r.cfg.nMax → s.nhash.toNat ≤ r.cfg.kMax →
    execAll (loadMacro s.nhash (arrayWords s)) r = .next { r with
      configured := true, nwords := s.nwords, nhash := s.nhash, mem := s.mem,
      rsp := r.rsp ++ [0x01000000#32, 0x06000000#32] }

/-! ## The host's procedures -/

/-- R158, R159, R160, R161: the record saved for any filter decodes and validates, and loading it sends exactly INIT and
MERGE with the saved hash count and words. -/
def Obligations.SavedRecordLoadsTheSameWords : Prop :=
  ∀ s : State, loadRecord (saveRecord s.nhash (arrayWords s)) = .send (loadMacro s.nhash (arrayWords s))

/-- R153 (a): whatever the host's `round` is, valid arguments never give an INIT with a zero operand. -/
def Obligations.SizingGivesNoZeroOperand : Prop :=
  ∀ (round : ℝ → Int) (capacity : Int) (errorRate : ℝ) (numBits numHashes n : Int),
    CreateLegal capacity errorRate → Sizing round capacity errorRate numBits numHashes n →
    1 ≤ numBits ∧ 1 ≤ numHashes ∧ 1 ≤ n ∧ numBits ≤ 32 * n ∧ 32 * n < numBits + 32

/-- R152, R151, R157: `createEmpty` has one plan for every pair of arguments. Invalid arguments are InvalidArgument with no
command sent; a filter that fits the engine is created empty; one that does not is InvalidArgument, and the engine is as
before but for the response that said so; an operand that no 32-bit field holds is never sent (log 15). The sizes are those
of exact arithmetic with the host's `round` (log 14). -/
def Obligations.CreateEmptyReportsToItsCaller : Prop :=
  ∀ (round : ℝ → Int) (capacity : Int) (errorRate : ℝ) (s : State), s.cfg.Legal →
    ∃ p, (∀ q, CreateEmpty round capacity errorRate q ↔ q = p) ∧
      (¬ CreateLegal capacity errorRate → runPlan reportOf p s = some (.error .invalidArgument, s)) ∧
      ∀ numBits numHashes n, CreateLegal capacity errorRate → Sizing round capacity errorRate numBits numHashes n →
        (n ≤ s.cfg.nMax → numHashes ≤ s.cfg.kMax →
          ∃ t, runPlan reportOf p s = some (.done, t) ∧
            t = { s with configured := true, nwords := t.nwords, nhash := t.nhash, mem := t.mem,
                         rsp := s.rsp ++ [0x01000000#32] } ∧
            t.nwords.toNat = n ∧ t.nhash.toNat = numHashes ∧ ∀ w, w < n.toNat → readWord t.mem w = 0) ∧
        ((s.cfg.nMax : Int) < n ∨ (s.cfg.kMax : Int) < numHashes →
          runPlan reportOf p s = some (.error .invalidArgument, { s with
            rsp := s.rsp ++ (if n < 2 ^ 32 ∧ numHashes < 2 ^ 32 then [0x01010000#32] else []) }))

/-- R160, R161, R157: `load` of a record whose text does not decode, or whose byte count is no multiple of 4, is a
SerializationError and sends nothing; of one with no hash or no word it is a SerializationError, and the engine is as before
but for the answer to INIT; of one too large for the engine it is InvalidArgument; of any other it succeeds, and then
`NHASH`, `NWORDS` and `W` are exactly the record's. -/
def Obligations.LoadReportsToItsCaller : Prop :=
  ∀ (r : Record) (s : State), s.cfg.Legal →
    (base64Decode r.buckets = none → load r s = some (.error .serializationError, s)) ∧
    (∀ bytes, base64Decode r.buckets = some bytes → bytes.length % 4 ≠ 0 →
      load r s = some (.error .serializationError, s)) ∧
    ∀ ws, base64Decode r.buckets = some (serialBytes ws) → r.numHashes < 2 ^ 32 → ws.length < 2 ^ 32 →
      (r.numHashes = 0 ∨ ws = [] →
        load r s = some (.error .serializationError, { s with rsp := s.rsp ++ [0x01010000#32] })) ∧
      (r.numHashes ≠ 0 → ws ≠ [] → s.cfg.nMax < ws.length ∨ s.cfg.kMax < r.numHashes →
        load r s = some (.error .invalidArgument, { s with rsp := s.rsp ++ [0x01010000#32] })) ∧
      (r.numHashes ≠ 0 → ws ≠ [] → ws.length ≤ s.cfg.nMax → r.numHashes ≤ s.cfg.kMax →
        ∃ t, load r s = some (.done, t) ∧
          t = { s with configured := true, nwords := t.nwords, nhash := t.nhash, mem := t.mem,
                       rsp := s.rsp ++ [0x01000000#32, 0x06000000#32] } ∧
          t.nwords.toNat = ws.length ∧ t.nhash.toNat = r.numHashes ∧ arrayWords t = ws)

/-- R156, R157: `union` on a configured engine is IncompatibleFilter with nothing merged when the hash count or the word
count differs, and else succeeds with every word old OR operand; a word count that no operand holds is never sent (log 15).
With another engine's filter it is the union with that engine's hash count and words, read out by RDR and RDW and otherwise
left alone; with a record it is the union with the record's, or a SerializationError with nothing sent. That a record with no
hash or no word is sent like any other, although `load` reports it as a SerializationError, is the model's choice (log 15). -/
def Obligations.UnionReportsToItsCaller : Prop :=
  (∀ (k : Word) (ws : List Word) (s : State), s.Inv → s.configured = true →
    (2 ^ 32 ≤ ws.length → union k ws s = some (.error .incompatibleFilter, s)) ∧
    (ws.length < 2 ^ 32 → k ≠ s.nhash →
      union k ws s = some (.error .incompatibleFilter, { s with rsp := s.rsp ++ [0x06020000#32] })) ∧
    (ws.length < 2 ^ 32 → k = s.nhash → ws.length ≠ s.nwords.toNat →
      union k ws s = some (.error .incompatibleFilter, { s with rsp := s.rsp ++ [0x06030000#32] })) ∧
    (k = s.nhash → ws.length = s.nwords.toNat →
      ∃ t, union k ws s = some (.done, t) ∧ t = { s with mem := t.mem, rsp := s.rsp ++ [0x06000000#32] } ∧
        ∀ w, w < ws.length → readWord t.mem w = readWord s.mem w ||| ws.getD w 0)) ∧
  (∀ other s : State, other.configured = true →
    unionEngine other s = (union other.nhash (arrayWords other) s).map fun r =>
      (r.1, { other with rsp := other.rsp ++ filterAnswers other }, r.2)) ∧
  ∀ (r : Record) (s : State),
    (base64Decode r.buckets = none → unionRecord r s = some (.error .serializationError, s)) ∧
    (∀ bytes, base64Decode r.buckets = some bytes → bytes.length % 4 ≠ 0 →
      unionRecord r s = some (.error .serializationError, s)) ∧
    ∀ ws, base64Decode r.buckets = some (serialBytes ws) → r.numHashes < 2 ^ 32 → ws.length < 2 ^ 32 →
      ∃ k : Word, k.toNat = r.numHashes ∧ unionRecord r s = union k ws s

/-- R154, R155: whatever `KEY_ENCODING` is, `add` and `test` reject a key that is too long with nothing sent; they report
`ERR_NOT_CONFIGURED` of an engine without a filter; else `add` does what the command ADD does, `test` returns the `FLAG` bit
of the response, which says whether all bits of the encoded key's locations are set, with nothing changed, and after `add` it
returns true. How a rejected key is reported is the model's choice (log 15). -/
def Obligations.AddAndTestReportToTheirCaller : Prop :=
  ∀ (encoding : String → List Sym) (key : String) (s : State),
    (65535 < (encoding key).length →
      addKey encoding key s = some (.keyRejected, s) ∧ testKey encoding key s = some (.keyRejected, none, s)) ∧
    ((encoding key).length ≤ 65535 → s.configured = false →
      addKey encoding key s = some (.engine .notConfigured, { s with rsp := s.rsp ++ [0x02040000#32] }) ∧
      testKey encoding key s =
        some (.engine .notConfigured, none, { s with rsp := s.rsp ++ [0x03040000#32] })) ∧
    ((encoding key).length ≤ 65535 → s.Inv → s.configured = true →
      (∃ b h, testKey encoding key s = some (.done, some b, { s with rsp := s.rsp ++ [h] }) ∧
        h = (if b then 0x03000001#32 else 0x03000000#32) ∧ responseFlag h = b.toNat ∧
        (b = true ↔ ∀ i, i < s.nhash.toNat →
          bitTest s.mem (closedLocation s.cfg (mbits s) (encoding key) i) = true)) ∧
      ∃ t, addKey encoding key s = some (.done, t) ∧ exec (.add (encoding key)) s = .next t ∧
        ∃ u, testKey encoding key t = some (.done, some true, u))

/-- R158, R161: `save` of any filter reads the engine only, which answers its hash count, its word count and every word in
order, and the record has the hash count and the base64 text of the
array's bytes; `load` of that record into any engine whose limits it fits gives the same `NHASH`, `NWORDS` and array. -/
def Obligations.SaveThenLoadRestoresTheFilter : Prop :=
  ∀ s : State, s.Inv → s.configured = true →
    ∃ record, save s = some (.done, some record, { s with rsp := s.rsp ++ filterAnswers s }) ∧
      record.numHashes = s.nhash.toNat ∧
      base64Decode record.buckets = some ((List.range (4 * s.nwords.toNat)).map (Memory.read s.mem)) ∧
      ∀ r : State, s.nwords.toNat ≤ r.cfg.nMax → s.nhash.toNat ≤ r.cfg.kMax →
        load record r = some (.done, { r with
          configured := true, nwords := s.nwords, nhash := s.nhash, mem := s.mem,
          rsp := r.rsp ++ [0x01000000#32, 0x06000000#32] })
end

