-- ==== Sys2Proof/Laws/Decode.lean ====
section
/-! SUPPORT. The fields of header and symbol words in numbers (30_encoding R53, R54), and the opcode map (R58). -/

namespace Sys2Proof

theorem headerOpc_toNat (h : Word) : (headerOpc h).toNat = h.toNat / 2 ^ 24 := by
  have := h.isLt
  simp only [headerOpc, BitVec.extractLsb'_toNat, Nat.shiftRight_eq_div_pow]
  omega

theorem headerRsv_toNat (h : Word) : (headerRsv h).toNat = h.toNat / 2 ^ 16 % 2 ^ 8 := by
  simp only [headerRsv, BitVec.extractLsb'_toNat, Nat.shiftRight_eq_div_pow]

theorem headerArg_toNat (h : Word) : (headerArg h).toNat = h.toNat % 2 ^ 16 := by
  simp only [headerArg, BitVec.extractLsb'_toNat, Nat.shiftRight_eq_div_pow, Nat.pow_zero, Nat.div_one]

theorem headerReg_toNat (h : Word) : (headerReg h).toNat = h.toNat % 2 ^ 8 := by
  simp only [headerReg, BitVec.extractLsb'_toNat, Nat.shiftRight_eq_div_pow, Nat.pow_zero, Nat.div_one]

theorem headerArgHigh_toNat (h : Word) : (headerArgHigh h).toNat = h.toNat / 2 ^ 8 % 2 ^ 8 := by
  simp only [headerArgHigh, BitVec.extractLsb'_toNat, Nat.shiftRight_eq_div_pow]

theorem symbolRsv_toNat (w : Word) : (symbolRsv w).toNat = w.toNat / 2 ^ 16 := by
  have := w.isLt
  simp only [symbolRsv, BitVec.extractLsb'_toNat, Nat.shiftRight_eq_div_pow]
  omega

theorem symbolOf_toNat (w : Word) : (symbolOf w).toNat = w.toNat % 2 ^ 16 := by
  simp only [symbolOf, BitVec.extractLsb'_toNat, Nat.shiftRight_eq_div_pow, Nat.pow_zero, Nat.div_one]

theorem symbolWord_toNat (c : Sym) : (symbolWord c).toNat = c.toNat := by
  have := c.isLt
  simp only [symbolWord, BitVec.toNat_setWidth]
  omega

@[simp] theorem symbolOf_symbolWord (c : Sym) : symbolOf (symbolWord c) = c := by
  apply BitVec.eq_of_toNat_eq
  have := c.isLt
  rw [symbolOf_toNat, symbolWord_toNat]
  omega

@[simp] theorem symbolRsv_symbolWord (c : Sym) : symbolRsv (symbolWord c) = 0 := by
  apply BitVec.eq_of_toNat_eq
  have := c.isLt
  rw [symbolRsv_toNat, symbolWord_toNat]
  simp only [BitVec.ofNat_eq_ofNat, BitVec.toNat_ofNat]
  omega

/-- A symbol word with clean reserved bits is the word of its symbol. -/
theorem symbolWord_symbolOf {w : Word} (h : symbolRsv w = 0) : symbolWord (symbolOf w) = w := by
  apply BitVec.eq_of_toNat_eq
  have h' := congrArg BitVec.toNat h
  rw [symbolRsv_toNat] at h'
  simp only [BitVec.ofNat_eq_ofNat, BitVec.toNat_ofNat] at h'
  rw [symbolWord_toNat, symbolOf_toNat]
  omega

theorem opCode_bounds (op : Op) : 1 ≤ (opCode op).toNat ∧ (opCode op).toNat ≤ 10 := by cases op <;> decide

@[simp] theorem opOfByte_opCode (op : Op) : opOfByte (opCode op) = some op := by cases op <;> rfl

/-- The opcode map read backwards. -/
theorem opOfByte_some {b : Byte} {op : Op} (h : opOfByte b = some op) : opCode op = b := by
  apply BitVec.eq_of_toNat_eq
  unfold opOfByte at h
  split at h <;> first
    | (rename_i hb; cases h; rw [hb]; rfl)
    | cases h

/-- The bytes that name no command (R60). -/
theorem opOfByte_none {b : Byte} : opOfByte b = none ↔ b.toNat = 0 ∨ 11 ≤ b.toNat := by
  have hb := b.isLt
  unfold opOfByte
  constructor
  · intro h
    by_contra hc
    generalize b.toNat = n at *
    have h1 : 1 ≤ n := by omega
    have h2 : n ≤ 10 := by omega
    interval_cases n <;> exact absurd h (by simp)
  · intro h
    generalize b.toNat = n at *
    split <;> first
      | rfl
      | omega

theorem headerWord_toNat (op : Op) (arg : BitVec 16) :
    (headerWord op arg).toNat = (opCode op).toNat * 2 ^ 24 + arg.toNat := by
  have := opCode_bounds op; have := arg.isLt
  simp only [headerWord, BitVec.toNat_ofNat]
  omega

@[simp] theorem headerOpc_headerWord (op : Op) (arg : BitVec 16) : headerOpc (headerWord op arg) = opCode op := by
  apply BitVec.eq_of_toNat_eq
  have := arg.isLt
  rw [headerOpc_toNat, headerWord_toNat]
  omega

@[simp] theorem headerRsv_headerWord (op : Op) (arg : BitVec 16) : headerRsv (headerWord op arg) = 0 := by
  apply BitVec.eq_of_toNat_eq
  have := arg.isLt
  rw [headerRsv_toNat, headerWord_toNat]
  simp only [BitVec.ofNat_eq_ofNat, BitVec.toNat_ofNat]
  omega

@[simp] theorem headerArg_headerWord (op : Op) (arg : BitVec 16) : headerArg (headerWord op arg) = arg := by
  apply BitVec.eq_of_toNat_eq
  have := arg.isLt
  rw [headerArg_toNat, headerWord_toNat]
  omega

/-- A header with `RSV = 0` is the header of its opcode and `ARG`. -/
theorem headerWord_of_clean {op : Op} {h : Word} (ho : opOfByte (headerOpc h) = some op) (hr : headerRsv h = 0) :
    headerWord op (headerArg h) = h := by
  apply BitVec.eq_of_toNat_eq
  have h1 := congrArg BitVec.toNat (opOfByte_some ho)
  have h2 := congrArg BitVec.toNat hr
  have := h.isLt
  rw [headerOpc_toNat] at h1
  rw [headerRsv_toNat] at h2
  simp only [BitVec.ofNat_eq_ofNat, BitVec.toNat_ofNat] at h2
  rw [headerWord_toNat, headerArg_toNat, h1]
  omega

theorem map_symbolOf_symbolWord (key : List Sym) : (key.map symbolWord).map symbolOf = key := by
  rw [List.map_map]
  exact (List.map_congr_left fun c _ => symbolOf_symbolWord c).trans (List.map_id key)

theorem all_symbolRsv_symbolWord (key : List Sym) : ((key.map symbolWord).all fun w => symbolRsv w == 0) = true := by
  rw [List.all_eq_true]
  intro w hw
  obtain ⟨c, -, rfl⟩ := List.mem_map.mp hw
  simp

theorem keyLen_toNat {key : List Sym} (h : key.length ≤ keyLenMax) : (keyLen key).toNat = key.length := by
  unfold keyLenMax at h
  simp only [keyLen, BitVec.toNat_ofNat]
  omega

/-- One packet of a list of words: the three ways the decoder answers, and what it consumes. -/
theorem decode_cons_some {h : Word} {ws rest : List Word} {p : Packet} (hd : decode (h :: ws) = some (p, rest)) :
    (opOfByte (headerOpc h) = none ∧ p = .illegal (headerOpc h) ∧ rest = ws) ∨
      ∃ op n, opOfByte (headerOpc h) = some op ∧ payloadLength op h ws = some n ∧ n ≤ ws.length ∧
        p = packetOf op h (ws.take n) ∧ rest = ws.drop n := by
  rw [decode] at hd
  split at hd
  · rename_i ho
    injection hd with hd
    injection hd with h1 h2
    exact .inl ⟨ho, h1.symm, h2.symm⟩
  · rename_i op ho
    split at hd
    · nomatch hd
    · rename_i n hn
      split at hd
      · rename_i hl
        injection hd with hd
        injection hd with h1 h2
        exact .inr ⟨op, n, ho, hn, hl, h1.symm, h2.symm⟩
      · nomatch hd

/-- A packet of an assigned opcode whose payload is all there. -/
theorem decode_whole {h : Word} {ws : List Word} {op : Op} {n : Nat} (ho : opOfByte (headerOpc h) = some op)
    (hn : payloadLength op h ws = some n) (hl : n ≤ ws.length) :
    decode (h :: ws) = some (packetOf op h (ws.take n), ws.drop n) := by
  rw [decode, ho]
  simp only [hn]
  rw [if_pos hl]

end Sys2Proof
end

