-- ==== Sys2Proof/Laws/Hash.lean ====
section
/-! SUPPORT. The pieces of the hash mixer in numbers (40_hash_engine R82, R84). -/

namespace Sys2Proof.Machine

theorem fnvPrime_toNat : fnvPrime.toNat = 16777619 := rfl

theorem fnvMultiply_toNat (a : Word) : (fnvMultiply a).toNat = a.toNat * 16777619 % 2 ^ 32 := by
  rw [fnvMultiply, BitVec.toNat_mul, fnvPrime_toNat]

theorem symHigh_toNat (c : Sym) : (symHigh c).toNat = c.toNat / 256 := by
  have := c.isLt
  simp only [symHigh, BitVec.toNat_setWidth, BitVec.extractLsb'_toNat, Nat.shiftRight_eq_div_pow]
  omega

theorem symLow_toNat (c : Sym) : (symLow c).toNat = c.toNat % 256 := by
  have := c.isLt
  simp only [symLow, BitVec.toNat_setWidth, BitVec.extractLsb'_toNat, Nat.shiftRight_eq_div_pow]
  omega

/-- The high part is zero exactly for byte symbols. -/
theorem symHigh_eq_zero (c : Sym) : symHigh c = 0 ↔ c.toNat < 256 := by
  rw [← BitVec.toNat_inj, symHigh_toNat]
  simp only [BitVec.ofNat_eq_ofNat, BitVec.toNat_ofNat]
  omega

end Sys2Proof.Machine
end

