-- ==== Sys2Proof/Laws/State.lean ====
section
/-! SUPPORT. One lemma per field per named update of State, true by rfl, so that no proof unfolds an update. -/

namespace Sys2Proof.Machine

/-! ### emit -/

@[simp] theorem emit_cfg (s : State) (ws : List Word) : (emit s ws).cfg = s.cfg := rfl

@[simp] theorem emit_configured (s : State) (ws : List Word) : (emit s ws).configured = s.configured := rfl

@[simp] theorem emit_nwords (s : State) (ws : List Word) : (emit s ws).nwords = s.nwords := rfl

@[simp] theorem emit_nhash (s : State) (ws : List Word) : (emit s ws).nhash = s.nhash := rfl

@[simp] theorem emit_mem (s : State) (ws : List Word) : (emit s ws).mem = s.mem := rfl

@[simp] theorem emit_scratch (s : State) (ws : List Word) : (emit s ws).scratch = s.scratch := rfl

@[simp] theorem emit_rsp (s : State) (ws : List Word) : (emit s ws).rsp = s.rsp ++ ws := rfl

@[simp] theorem emit_rst (s : State) (ws : List Word) : (emit s ws).rst = s.rst := rfl

@[simp] theorem emit_cmdIn (s : State) (ws : List Word) : (emit s ws).cmdIn = s.cmdIn := rfl

@[simp] theorem emit_rspReady (s : State) (ws : List Word) : (emit s ws).rspReady = s.rspReady := rfl

@[simp] theorem emit_rspStream (s : State) (ws : List Word) : (emit s ws).rspStream = s.rspStream := rfl

/-! ### respond -/

@[simp] theorem respond_cfg (opc : Byte) (flag : Bool) (ws : List Word) (s : State) :
    (respond opc flag ws s).cfg = s.cfg := rfl

@[simp] theorem respond_configured (opc : Byte) (flag : Bool) (ws : List Word) (s : State) :
    (respond opc flag ws s).configured = s.configured := rfl

@[simp] theorem respond_nwords (opc : Byte) (flag : Bool) (ws : List Word) (s : State) :
    (respond opc flag ws s).nwords = s.nwords := rfl

@[simp] theorem respond_nhash (opc : Byte) (flag : Bool) (ws : List Word) (s : State) :
    (respond opc flag ws s).nhash = s.nhash := rfl

@[simp] theorem respond_mem (opc : Byte) (flag : Bool) (ws : List Word) (s : State) :
    (respond opc flag ws s).mem = s.mem := rfl

@[simp] theorem respond_scratch (opc : Byte) (flag : Bool) (ws : List Word) (s : State) :
    (respond opc flag ws s).scratch = s.scratch := rfl

@[simp] theorem respond_rsp (opc : Byte) (flag : Bool) (ws : List Word) (s : State) :
    (respond opc flag ws s).rsp = s.rsp ++ responseHeader opc .ok flag :: ws := rfl

@[simp] theorem respond_rst (opc : Byte) (flag : Bool) (ws : List Word) (s : State) :
    (respond opc flag ws s).rst = s.rst := rfl

@[simp] theorem respond_cmdIn (opc : Byte) (flag : Bool) (ws : List Word) (s : State) :
    (respond opc flag ws s).cmdIn = s.cmdIn := rfl

@[simp] theorem respond_rspReady (opc : Byte) (flag : Bool) (ws : List Word) (s : State) :
    (respond opc flag ws s).rspReady = s.rspReady := rfl

@[simp] theorem respond_rspStream (opc : Byte) (flag : Bool) (ws : List Word) (s : State) :
    (respond opc flag ws s).rspStream = s.rspStream := rfl

/-! ### raiseError -/

@[simp] theorem raiseError_cfg (opc : Byte) (err : ErrorCode) (s : State) : (raiseError opc err s).cfg = s.cfg := rfl

@[simp] theorem raiseError_configured (opc : Byte) (err : ErrorCode) (s : State) :
    (raiseError opc err s).configured = s.configured := rfl

@[simp] theorem raiseError_nwords (opc : Byte) (err : ErrorCode) (s : State) :
    (raiseError opc err s).nwords = s.nwords := rfl

@[simp] theorem raiseError_nhash (opc : Byte) (err : ErrorCode) (s : State) :
    (raiseError opc err s).nhash = s.nhash := rfl

@[simp] theorem raiseError_mem (opc : Byte) (err : ErrorCode) (s : State) : (raiseError opc err s).mem = s.mem := rfl

@[simp] theorem raiseError_scratch (opc : Byte) (err : ErrorCode) (s : State) :
    (raiseError opc err s).scratch = s.scratch := rfl

@[simp] theorem raiseError_rsp (opc : Byte) (err : ErrorCode) (s : State) :
    (raiseError opc err s).rsp = s.rsp ++ [responseHeader opc err false] := rfl

@[simp] theorem raiseError_rst (opc : Byte) (err : ErrorCode) (s : State) : (raiseError opc err s).rst = s.rst := rfl

@[simp] theorem raiseError_cmdIn (opc : Byte) (err : ErrorCode) (s : State) :
    (raiseError opc err s).cmdIn = s.cmdIn := rfl

@[simp] theorem raiseError_rspReady (opc : Byte) (err : ErrorCode) (s : State) :
    (raiseError opc err s).rspReady = s.rspReady := rfl

@[simp] theorem raiseError_rspStream (opc : Byte) (err : ErrorCode) (s : State) :
    (raiseError opc err s).rspStream = s.rspStream := rfl

/-! ### createFilter -/

@[simp] theorem createFilter_cfg (n k : Word) (s : State) : (createFilter n k s).cfg = s.cfg := rfl

@[simp] theorem createFilter_configured (n k : Word) (s : State) : (createFilter n k s).configured = true := rfl

@[simp] theorem createFilter_nwords (n k : Word) (s : State) : (createFilter n k s).nwords = n := rfl

@[simp] theorem createFilter_nhash (n k : Word) (s : State) : (createFilter n k s).nhash = k := rfl

@[simp] theorem createFilter_mem (n k : Word) (s : State) : (createFilter n k s).mem = zeroFill := rfl

@[simp] theorem createFilter_scratch (n k : Word) (s : State) : (createFilter n k s).scratch = s.scratch := rfl

@[simp] theorem createFilter_rsp (n k : Word) (s : State) : (createFilter n k s).rsp = s.rsp := rfl

@[simp] theorem createFilter_rst (n k : Word) (s : State) : (createFilter n k s).rst = s.rst := rfl

@[simp] theorem createFilter_cmdIn (n k : Word) (s : State) : (createFilter n k s).cmdIn = s.cmdIn := rfl

@[simp] theorem createFilter_rspReady (n k : Word) (s : State) : (createFilter n k s).rspReady = s.rspReady := rfl

@[simp] theorem createFilter_rspStream (n k : Word) (s : State) : (createFilter n k s).rspStream = s.rspStream := rfl

/-! ### resetEngine -/

@[simp] theorem resetEngine_cfg (s : State) : (resetEngine s).cfg = s.cfg := rfl

@[simp] theorem resetEngine_configured (s : State) : (resetEngine s).configured = false := rfl

@[simp] theorem resetEngine_nwords (s : State) : (resetEngine s).nwords = 0 := rfl

@[simp] theorem resetEngine_nhash (s : State) : (resetEngine s).nhash = 0 := rfl

@[simp] theorem resetEngine_mem (s : State) : (resetEngine s).mem = [] := rfl

@[simp] theorem resetEngine_scratch (s : State) : (resetEngine s).scratch = [] := rfl

@[simp] theorem resetEngine_rsp (s : State) : (resetEngine s).rsp = [] := rfl

@[simp] theorem resetEngine_rst (s : State) : (resetEngine s).rst = s.rst := rfl

@[simp] theorem resetEngine_cmdIn (s : State) : (resetEngine s).cmdIn = s.cmdIn := rfl

@[simp] theorem resetEngine_rspReady (s : State) : (resetEngine s).rspReady = s.rspReady := rfl

@[simp] theorem resetEngine_rspStream (s : State) : (resetEngine s).rspStream = s.rspStream := rfl

/-! ### holdPacket -/

@[simp] theorem holdPacket_cfg (s : State) : (holdPacket s).cfg = s.cfg := rfl

@[simp] theorem holdPacket_configured (s : State) : (holdPacket s).configured = s.configured := rfl

@[simp] theorem holdPacket_nwords (s : State) : (holdPacket s).nwords = s.nwords := rfl

@[simp] theorem holdPacket_nhash (s : State) : (holdPacket s).nhash = s.nhash := rfl

@[simp] theorem holdPacket_mem (s : State) : (holdPacket s).mem = s.mem := rfl

@[simp] theorem holdPacket_scratch (s : State) : (holdPacket s).scratch = s.scratch ++ s.cmdIn := rfl

@[simp] theorem holdPacket_rsp (s : State) : (holdPacket s).rsp = s.rsp := rfl

@[simp] theorem holdPacket_rst (s : State) : (holdPacket s).rst = s.rst := rfl

@[simp] theorem holdPacket_cmdIn (s : State) : (holdPacket s).cmdIn = [] := rfl

@[simp] theorem holdPacket_rspReady (s : State) : (holdPacket s).rspReady = s.rspReady := rfl

@[simp] theorem holdPacket_rspStream (s : State) : (holdPacket s).rspStream = s.rspStream := rfl

/-! ### consumePacket -/

@[simp] theorem consumePacket_cfg (s : State) (rest : List Word) : (consumePacket s rest).cfg = s.cfg := rfl

@[simp] theorem consumePacket_configured (s : State) (rest : List Word) :
    (consumePacket s rest).configured = s.configured := rfl

@[simp] theorem consumePacket_nwords (s : State) (rest : List Word) : (consumePacket s rest).nwords = s.nwords := rfl

@[simp] theorem consumePacket_nhash (s : State) (rest : List Word) : (consumePacket s rest).nhash = s.nhash := rfl

@[simp] theorem consumePacket_mem (s : State) (rest : List Word) : (consumePacket s rest).mem = s.mem := rfl

@[simp] theorem consumePacket_scratch (s : State) (rest : List Word) : (consumePacket s rest).scratch = [] := rfl

@[simp] theorem consumePacket_rsp (s : State) (rest : List Word) : (consumePacket s rest).rsp = s.rsp := rfl

@[simp] theorem consumePacket_rst (s : State) (rest : List Word) : (consumePacket s rest).rst = s.rst := rfl

@[simp] theorem consumePacket_cmdIn (s : State) (rest : List Word) : (consumePacket s rest).cmdIn = rest := rfl

@[simp] theorem consumePacket_rspReady (s : State) (rest : List Word) :
    (consumePacket s rest).rspReady = s.rspReady := rfl

@[simp] theorem consumePacket_rspStream (s : State) (rest : List Word) :
    (consumePacket s rest).rspStream = s.rspStream := rfl

/-! ### placePacket -/

@[simp] theorem placePacket_cfg (ws : List Word) (s : State) : (placePacket ws s).cfg = s.cfg := rfl

@[simp] theorem placePacket_configured (ws : List Word) (s : State) :
    (placePacket ws s).configured = s.configured := rfl

@[simp] theorem placePacket_nwords (ws : List Word) (s : State) : (placePacket ws s).nwords = s.nwords := rfl

@[simp] theorem placePacket_nhash (ws : List Word) (s : State) : (placePacket ws s).nhash = s.nhash := rfl

@[simp] theorem placePacket_mem (ws : List Word) (s : State) : (placePacket ws s).mem = s.mem := rfl

@[simp] theorem placePacket_scratch (ws : List Word) (s : State) : (placePacket ws s).scratch = [] := rfl

@[simp] theorem placePacket_rsp (ws : List Word) (s : State) : (placePacket ws s).rsp = [] := rfl

@[simp] theorem placePacket_rst (ws : List Word) (s : State) : (placePacket ws s).rst = false := rfl

@[simp] theorem placePacket_cmdIn (ws : List Word) (s : State) : (placePacket ws s).cmdIn = ws ++ s.cmdIn := rfl

@[simp] theorem placePacket_rspReady (ws : List Word) (s : State) : (placePacket ws s).rspReady = s.rspReady := rfl

@[simp] theorem placePacket_rspStream (ws : List Word) (s : State) : (placePacket ws s).rspStream = s.rspStream := rfl

/-! ### hostSend -/

@[simp] theorem hostSend_cfg (ws : List Word) (s : State) : (hostSend ws s).cfg = s.cfg := rfl

@[simp] theorem hostSend_configured (ws : List Word) (s : State) : (hostSend ws s).configured = s.configured := rfl

@[simp] theorem hostSend_nwords (ws : List Word) (s : State) : (hostSend ws s).nwords = s.nwords := rfl

@[simp] theorem hostSend_nhash (ws : List Word) (s : State) : (hostSend ws s).nhash = s.nhash := rfl

@[simp] theorem hostSend_mem (ws : List Word) (s : State) : (hostSend ws s).mem = s.mem := rfl

@[simp] theorem hostSend_scratch (ws : List Word) (s : State) : (hostSend ws s).scratch = s.scratch := rfl

@[simp] theorem hostSend_rsp (ws : List Word) (s : State) : (hostSend ws s).rsp = s.rsp := rfl

@[simp] theorem hostSend_rst (ws : List Word) (s : State) : (hostSend ws s).rst = s.rst := rfl

@[simp] theorem hostSend_cmdIn (ws : List Word) (s : State) : (hostSend ws s).cmdIn = s.cmdIn ++ ws := rfl

@[simp] theorem hostSend_rspReady (ws : List Word) (s : State) : (hostSend ws s).rspReady = s.rspReady := rfl

@[simp] theorem hostSend_rspStream (ws : List Word) (s : State) : (hostSend ws s).rspStream = s.rspStream := rfl

/-! ### hostReady -/

@[simp] theorem hostReady_cfg (ready : Bool) (s : State) : (hostReady ready s).cfg = s.cfg := rfl

@[simp] theorem hostReady_configured (ready : Bool) (s : State) : (hostReady ready s).configured = s.configured := rfl

@[simp] theorem hostReady_nwords (ready : Bool) (s : State) : (hostReady ready s).nwords = s.nwords := rfl

@[simp] theorem hostReady_nhash (ready : Bool) (s : State) : (hostReady ready s).nhash = s.nhash := rfl

@[simp] theorem hostReady_mem (ready : Bool) (s : State) : (hostReady ready s).mem = s.mem := rfl

@[simp] theorem hostReady_scratch (ready : Bool) (s : State) : (hostReady ready s).scratch = s.scratch := rfl

@[simp] theorem hostReady_rsp (ready : Bool) (s : State) : (hostReady ready s).rsp = s.rsp := rfl

@[simp] theorem hostReady_rst (ready : Bool) (s : State) : (hostReady ready s).rst = s.rst := rfl

@[simp] theorem hostReady_cmdIn (ready : Bool) (s : State) : (hostReady ready s).cmdIn = s.cmdIn := rfl

@[simp] theorem hostReady_rspReady (ready : Bool) (s : State) : (hostReady ready s).rspReady = ready := rfl

@[simp] theorem hostReady_rspStream (ready : Bool) (s : State) : (hostReady ready s).rspStream = s.rspStream := rfl

/-! ### hostReset -/

@[simp] theorem hostReset_cfg (rst : Bool) (s : State) : (hostReset rst s).cfg = s.cfg := rfl

@[simp] theorem hostReset_configured (rst : Bool) (s : State) : (hostReset rst s).configured = s.configured := rfl

@[simp] theorem hostReset_nwords (rst : Bool) (s : State) : (hostReset rst s).nwords = s.nwords := rfl

@[simp] theorem hostReset_nhash (rst : Bool) (s : State) : (hostReset rst s).nhash = s.nhash := rfl

@[simp] theorem hostReset_mem (rst : Bool) (s : State) : (hostReset rst s).mem = s.mem := rfl

@[simp] theorem hostReset_scratch (rst : Bool) (s : State) : (hostReset rst s).scratch = s.scratch := rfl

@[simp] theorem hostReset_rsp (rst : Bool) (s : State) : (hostReset rst s).rsp = s.rsp := rfl

@[simp] theorem hostReset_rst (rst : Bool) (s : State) : (hostReset rst s).rst = rst := rfl

@[simp] theorem hostReset_cmdIn (rst : Bool) (s : State) : (hostReset rst s).cmdIn = s.cmdIn := rfl

@[simp] theorem hostReset_rspReady (rst : Bool) (s : State) : (hostReset rst s).rspReady = s.rspReady := rfl

@[simp] theorem hostReset_rspStream (rst : Bool) (s : State) : (hostReset rst s).rspStream = s.rspStream := rfl

/-! ### hostWithdraw -/

@[simp] theorem hostWithdraw_cfg (s : State) : (hostWithdraw s).cfg = s.cfg := rfl

@[simp] theorem hostWithdraw_configured (s : State) : (hostWithdraw s).configured = s.configured := rfl

@[simp] theorem hostWithdraw_nwords (s : State) : (hostWithdraw s).nwords = s.nwords := rfl

@[simp] theorem hostWithdraw_nhash (s : State) : (hostWithdraw s).nhash = s.nhash := rfl

@[simp] theorem hostWithdraw_mem (s : State) : (hostWithdraw s).mem = s.mem := rfl

@[simp] theorem hostWithdraw_scratch (s : State) : (hostWithdraw s).scratch = s.scratch := rfl

@[simp] theorem hostWithdraw_rsp (s : State) : (hostWithdraw s).rsp = s.rsp := rfl

@[simp] theorem hostWithdraw_rst (s : State) : (hostWithdraw s).rst = s.rst := rfl

@[simp] theorem hostWithdraw_cmdIn (s : State) : (hostWithdraw s).cmdIn = [] := rfl

@[simp] theorem hostWithdraw_rspReady (s : State) : (hostWithdraw s).rspReady = s.rspReady := rfl

@[simp] theorem hostWithdraw_rspStream (s : State) : (hostWithdraw s).rspStream = s.rspStream := rfl

end Sys2Proof.Machine
end

