-- ==== Sys2Proof/Laws/Memory.lean ====
section
/-! SUPPORT. The laws of the byte view of the bit array: reading after a write, the canonical form kept by every write,
and equal reads making equal arrays. -/

namespace Sys2Proof.Machine

theorem Memory.wf_nil : Memory.wf [] := ⟨List.Pairwise.nil, fun _ h => absurd h List.not_mem_nil⟩

/-- Below every listed address an array reads as unlisted. -/
theorem Memory.read_of_lt_all {m : List Host.Cell} {x : Nat} (h : ∀ c ∈ m, x < c.1) :
    Memory.read m x = Memory.unlisted := by
  induction m with
  | nil => rfl
  | cons c m ih =>
    have hx : x < c.1 := h c (by simp)
    rw [Memory.read, if_neg (by omega)]
    exact ih fun d hd => h d (by simp [hd])

theorem Memory.wf_tail {c : Host.Cell} {m : List Host.Cell} (h : Memory.wf (c :: m)) : Memory.wf m :=
  ⟨(List.pairwise_cons.mp h.1).2, fun d hd => h.2 d (by simp [hd])⟩

theorem Memory.lt_of_wf_cons {c : Host.Cell} {m : List Host.Cell} (h : Memory.wf (c :: m)) :
    ∀ d ∈ m, c.1 < d.1 := (List.pairwise_cons.mp h.1).1

theorem Memory.read_cons {x : Nat} {v : Byte} {m : List Host.Cell} (h : ∀ c ∈ m, x < c.1) (y : Nat) :
    Memory.read (Memory.cons x v m) y = if x = y then v else Memory.read m y := by
  unfold Memory.cons
  split
  · rename_i hv
    split
    · subst_vars; exact Memory.read_of_lt_all h
    · rfl
  · rfl

theorem Memory.wf_cons {x : Nat} {v : Byte} {m : List Host.Cell} (h : ∀ c ∈ m, x < c.1) (hm : Memory.wf m) :
    Memory.wf (Memory.cons x v m) := by
  unfold Memory.cons
  split
  · exact hm
  · rename_i hv
    exact ⟨List.pairwise_cons.mpr ⟨h, hm.1⟩, by
      intro c hc
      rcases List.mem_cons.mp hc with rfl | hc
      · exact hv
      · exact hm.2 c hc⟩

theorem Memory.mem_cons {x : Nat} {v : Byte} {m : List Host.Cell} {c : Host.Cell}
    (h : c ∈ Memory.cons x v m) : c.1 = x ∨ c ∈ m := by
  unfold Memory.cons at h
  split at h
  · exact .inr h
  · rcases List.mem_cons.mp h with rfl | h
    · exact .inl rfl
    · exact .inr h

/-- A write lists no address but its own beside those already listed. -/
theorem Memory.mem_write {m : List Host.Cell} {x : Nat} {v : Byte} {c : Host.Cell}
    (h : c ∈ Memory.write m x v) : c.1 = x ∨ c ∈ m := by
  induction m with
  | nil => exact Memory.mem_cons h
  | cons d m ih =>
    rw [Memory.write] at h
    split at h
    · exact Memory.mem_cons h
    · split at h
      · rcases Memory.mem_cons h with h | h
        · exact .inl h
        · exact .inr (by simp [h])
      · rcases List.mem_cons.mp h with rfl | h
        · exact .inr (by simp)
        · rcases ih h with h | h
          · exact .inl h
          · exact .inr (by simp [h])

/-- Every write keeps the canonical form. -/
theorem Memory.wf_write {m : List Host.Cell} (hm : Memory.wf m) (x : Nat) (v : Byte) :
    Memory.wf (Memory.write m x v) := by
  induction m with
  | nil => exact Memory.wf_cons (by simp) hm
  | cons d m ih =>
    have hlt := Memory.lt_of_wf_cons hm
    have htl := Memory.wf_tail hm
    rw [Memory.write]
    split
    · rename_i hx
      refine Memory.wf_cons (fun c hc => ?_) hm
      rcases List.mem_cons.mp hc with rfl | hc
      · exact hx
      · exact lt_trans hx (hlt c hc)
    · split
      · rename_i hx
        exact Memory.wf_cons (fun c hc => hx ▸ hlt c hc) htl
      · rename_i hx hne
        have h' := ih htl
        refine ⟨List.pairwise_cons.mpr ⟨fun c hc => ?_, h'.1⟩, fun c hc => ?_⟩
        · rcases Memory.mem_write hc with h | h
          · show d.1 < c.1
            omega
          · exact hlt c h
        · rcases List.mem_cons.mp hc with rfl | hc
          · exact hm.2 _ (by simp)
          · exact h'.2 c hc

/-- Read after write: the written byte at its address, every other byte as before. -/
theorem Memory.read_write {m : List Host.Cell} (hm : Memory.wf m) (x : Nat) (v : Byte) (y : Nat) :
    Memory.read (Memory.write m x v) y = if x = y then v else Memory.read m y := by
  induction m with
  | nil => exact Memory.read_cons (by simp) y
  | cons d m ih =>
    have hlt := Memory.lt_of_wf_cons hm
    have htl := Memory.wf_tail hm
    rw [Memory.write]
    split
    · rename_i hx
      refine Memory.read_cons (fun c hc => ?_) y
      rcases List.mem_cons.mp hc with rfl | hc
      · exact hx
      · exact lt_trans hx (hlt c hc)
    · split
      · rename_i hx
        rw [Memory.read_cons (fun c hc => hx ▸ hlt c hc) y, Memory.read]
        by_cases hy : x = y
        · simp [hy]
        · rw [if_neg hy, if_neg hy, if_neg (hx ▸ hy)]
      · rename_i hx hne
        rw [Memory.read, Memory.read, ih htl]
        by_cases hy : d.1 = y
        · rw [if_pos hy, if_pos hy, if_neg (by omega)]
        · rw [if_neg hy, if_neg hy]

/-- In canonical form, equal reads make equal arrays. -/
theorem Memory.ext {m n : List Host.Cell} (hm : Memory.wf m) (hn : Memory.wf n)
    (h : ∀ a, Memory.read m a = Memory.read n a) : m = n := by
  induction m generalizing n with
  | nil =>
    cases n with
    | nil => rfl
    | cons d n =>
      have := h d.1
      rw [Memory.read, Memory.read, if_pos rfl] at this
      exact absurd this.symm (hn.2 d (by simp))
  | cons c m ih =>
    have hc : Memory.read (c :: m) c.1 = c.2 := by rw [Memory.read, if_pos rfl]
    cases n with
    | nil =>
      have := h c.1
      rw [hc, Memory.read] at this
      exact absurd this (hm.2 c (by simp))
    | cons d n =>
      have hd : Memory.read (d :: n) d.1 = d.2 := by rw [Memory.read, if_pos rfl]
      have hcd : c.1 = d.1 := by
        rcases lt_trichotomy c.1 d.1 with hlt | heq | hgt
        · have h1 := h c.1
          rw [hc, Memory.read_of_lt_all (m := d :: n)] at h1
          · exact absurd h1 (hm.2 c (by simp))
          · intro e he
            rcases List.mem_cons.mp he with rfl | he
            · exact hlt
            · exact lt_trans hlt (Memory.lt_of_wf_cons hn e he)
        · exact heq
        · have h1 := h d.1
          rw [hd, Memory.read_of_lt_all (m := c :: m)] at h1
          · exact absurd h1.symm (hn.2 d (by simp))
          · intro e he
            rcases List.mem_cons.mp he with rfl | he
            · exact hgt
            · exact lt_trans hgt (Memory.lt_of_wf_cons hm e he)
      have hv : c.2 = d.2 := by rw [← hc, ← hd, ← hcd]; exact h c.1
      have heq : c = d := Prod.ext hcd hv
      subst heq
      congr 1
      refine ih (Memory.wf_tail hm) (Memory.wf_tail hn) fun a => ?_
      by_cases ha : c.1 = a
      · subst ha
        rw [Memory.read_of_lt_all (Memory.lt_of_wf_cons hm), Memory.read_of_lt_all (Memory.lt_of_wf_cons hn)]
      · have := h a
        rwa [Memory.read, Memory.read, if_neg ha, if_neg ha] at this

end Sys2Proof.Machine
end

