-- ==== Sys2Proof/Laws/Words.lean ====
section
/-! SUPPORT. The laws of whole-word accesses (20_memory R34, R36), of single bits (R31) and of the primitives of
42_bit_array, one spec lemma for each. -/

namespace Sys2Proof.Machine

theorem wordByte_toNat (w : Word) (j : Nat) : (wordByte w j).toNat = w.toNat / 2 ^ (8 * j) % 256 := by
  simp [wordByte]

theorem wordOfBytes_toNat (b0 b1 b2 b3 : Byte) :
    (wordOfBytes b0 b1 b2 b3).toNat =
      b0.toNat + 2 ^ 8 * b1.toNat + 2 ^ 16 * b2.toNat + 2 ^ 24 * b3.toNat := by
  have := b0.isLt; have := b1.isLt; have := b2.isLt; have := b3.isLt
  simp only [wordOfBytes, BitVec.toNat_ofNat]
  omega

theorem wordOfBytes_wordByte (w : Word) :
    wordOfBytes (wordByte w 0) (wordByte w 1) (wordByte w 2) (wordByte w 3) = w := by
  apply BitVec.eq_of_toNat_eq
  have := w.isLt
  simp only [wordOfBytes_toNat, wordByte_toNat]
  omega

theorem wordByte_wordOfBytes (b0 b1 b2 b3 : Byte) :
    wordByte (wordOfBytes b0 b1 b2 b3) 0 = b0 ∧ wordByte (wordOfBytes b0 b1 b2 b3) 1 = b1 ∧
    wordByte (wordOfBytes b0 b1 b2 b3) 2 = b2 ∧ wordByte (wordOfBytes b0 b1 b2 b3) 3 = b3 := by
  have := b0.isLt; have := b1.isLt; have := b2.isLt; have := b3.isLt
  refine ⟨?_, ?_, ?_, ?_⟩ <;> apply BitVec.eq_of_toNat_eq <;>
    simp only [wordOfBytes_toNat, wordByte_toNat] <;> omega

/-- The byte view of a word: byte `a` of the array is byte `a mod 4` of word `a div 4` (R36). -/
theorem read_eq_wordByte (m : List Host.Cell) (a : Nat) :
    Memory.read m a = wordByte (readWord m (a / 4)) (a % 4) := by
  obtain ⟨h0, h1, h2, h3⟩ := wordByte_wordOfBytes (Memory.read m (4 * (a / 4))) (Memory.read m (4 * (a / 4) + 1))
    (Memory.read m (4 * (a / 4) + 2)) (Memory.read m (4 * (a / 4) + 3))
  have hlt : a % 4 < 4 := Nat.mod_lt _ (by omega)
  have ha : a = 4 * (a / 4) + a % 4 := by omega
  unfold readWord
  generalize hq : a / 4 = q at *
  generalize hr : a % 4 = r at *
  subst ha
  interval_cases r
  · exact h0.symm
  · exact h1.symm
  · exact h2.symm
  · exact h3.symm

@[simp] theorem readWord_nil (i : Nat) : readWord [] i = 0 := by
  simp [readWord, Memory.read, Memory.unlisted, wordOfBytes]

theorem wf_writeWord {m : List Host.Cell} (hm : Memory.wf m) (i : Nat) (v : Word) : Memory.wf (writeWord m i v) :=
  Memory.wf_write (Memory.wf_write (Memory.wf_write (Memory.wf_write hm _ _) _ _) _ _) _ _

/-- A word write in bytes. -/
theorem read_writeWord {m : List Host.Cell} (hm : Memory.wf m) (i : Nat) (v : Word) (a : Nat) :
    Memory.read (writeWord m i v) a = if a / 4 = i then wordByte v (a % 4) else Memory.read m a := by
  have h0 := Memory.wf_write hm (4 * i) (wordByte v 0)
  have h1 := Memory.wf_write h0 (4 * i + 1) (wordByte v 1)
  have h2 := Memory.wf_write h1 (4 * i + 2) (wordByte v 2)
  unfold writeWord
  rw [Memory.read_write h2, Memory.read_write h1, Memory.read_write h0, Memory.read_write hm]
  have hlt : a % 4 < 4 := Nat.mod_lt _ (by omega)
  by_cases ha : a / 4 = i
  · rw [if_pos ha]
    have e : a = 4 * i + a % 4 := by omega
    generalize a % 4 = r at *
    subst e
    interval_cases r <;> simp
  · rw [if_neg ha, if_neg (by omega), if_neg (by omega), if_neg (by omega), if_neg (by omega)]

/-- `MemRead` after `MemWrite`. -/
theorem readWord_writeWord {m : List Host.Cell} (hm : Memory.wf m) (i : Nat) (v : Word) (j : Nat) :
    readWord (writeWord m i v) j = if i = j then v else readWord m j := by
  have e0 : (4 * j) / 4 = j ∧ (4 * j) % 4 = 0 := by omega
  have e1 : (4 * j + 1) / 4 = j ∧ (4 * j + 1) % 4 = 1 := by omega
  have e2 : (4 * j + 2) / 4 = j ∧ (4 * j + 2) % 4 = 2 := by omega
  have e3 : (4 * j + 3) / 4 = j ∧ (4 * j + 3) % 4 = 3 := by omega
  unfold readWord
  simp only [read_writeWord hm, e0, e1, e2, e3]
  by_cases h : i = j
  · simp only [h, if_true, wordOfBytes_wordByte]
  · simp only [if_neg h, if_neg (Ne.symm h)]

/-- A word write lists no address outside its word. -/
theorem mem_writeWord {m : List Host.Cell} {i : Nat} {v : Word} {c : Host.Cell} (h : c ∈ writeWord m i v) :
    c.1 / 4 = i ∨ c ∈ m := by
  rcases Memory.mem_write h with h | h
  · left; omega
  rcases Memory.mem_write h with h | h
  · left; omega
  rcases Memory.mem_write h with h | h
  · left; omega
  rcases Memory.mem_write h with h | h
  · left; omega
  exact .inr h

/-- In canonical form, equal words make equal arrays. -/
theorem array_ext {m n : List Host.Cell} (hm : Memory.wf m) (hn : Memory.wf n)
    (h : ∀ i, readWord m i = readWord n i) : m = n :=
  Memory.ext hm hn fun a => by rw [read_eq_wordByte, read_eq_wordByte, h]

/-- A word none of whose bytes is listed reads as 0. -/
theorem readWord_of_bound {m : List Host.Cell} {n : Nat} (h : ∀ c ∈ m, c.1 < 4 * n) {i : Nat} (hi : n ≤ i) :
    readWord m i = 0 := by
  have hr : ∀ a, 4 * n ≤ a → Memory.read m a = 0 := by
    intro a ha
    clear hi
    induction m with
    | nil => rfl
    | cons c m ih =>
      have := h c (by simp)
      rw [Memory.read, if_neg (by omega)]
      exact ih fun d hd => h d (by simp [hd])
  unfold readWord
  rw [hr _ (by omega), hr _ (by omega), hr _ (by omega), hr _ (by omega)]
  decide

/-! ## OR into a word -/

theorem wf_orWord {m : List Host.Cell} (hm : Memory.wf m) (i : Nat) (v : Word) : Memory.wf (orWord m i v) :=
  wf_writeWord hm _ _

theorem readWord_orWord {m : List Host.Cell} (hm : Memory.wf m) (i : Nat) (v : Word) (j : Nat) :
    readWord (orWord m i v) j = if i = j then readWord m j ||| v else readWord m j := by
  unfold orWord
  rw [readWord_writeWord hm]
  by_cases h : i = j
  · rw [if_pos h, if_pos h, h]
  · rw [if_neg h, if_neg h]

theorem mem_orWord {m : List Host.Cell} {i : Nat} {v : Word} {c : Host.Cell} (h : c ∈ orWord m i v) :
    c.1 / 4 = i ∨ c ∈ m := mem_writeWord h

/-! ## Bits -/

/-- A bit test reads the bit of weight `2^(b mod 32)` of word `b div 32` (R31, R110). -/
theorem bitTest_eq (m : List Host.Cell) (b : Nat) :
    bitTest m b = (readWord m (b / 32)).getLsbD (b % 32) := by
  have h : ∀ (x : Word) (n : Nat), decide ((x >>> n) &&& 1#32 = 1#32) = x.getLsbD n := by
    intro x n
    have h1 : x.getLsbD n = (x >>> n).getLsbD 0 := by rw [BitVec.getLsbD_ushiftRight, Nat.add_zero]
    rw [h1]
    generalize x >>> n = y
    have h2 : (y &&& 1#32).toNat = y.toNat % 2 := by
      rw [BitVec.toNat_and]; exact Nat.and_one_is_mod _
    rw [BitVec.getLsbD, Nat.testBit_zero]
    congr 1
    rw [← BitVec.toNat_inj, h2]
    rfl
  exact h _ _

theorem bitMask_getLsbD (b i : Nat) : (bitMask b).getLsbD i = decide (i = b % 32) := by
  have hb : b % 32 < 32 := Nat.mod_lt _ (by omega)
  rw [bitMask, subBit, BitVec.getLsbD_shiftLeft, BitVec.getLsbD_one]
  rw [Bool.eq_iff_iff]
  simp only [Bool.and_eq_true, Bool.not_eq_true', decide_eq_true_eq, decide_eq_false_iff_not]
  omega

theorem wf_bitSet {m : List Host.Cell} (hm : Memory.wf m) (b : Nat) : Memory.wf (bitSet m b) := wf_orWord hm _ _

/-- A bit set sets its bit and no other (R111). -/
theorem bitTest_bitSet {m : List Host.Cell} (hm : Memory.wf m) (b c : Nat) :
    bitTest (bitSet m b) c = (bitTest m c || decide (c = b)) := by
  rw [bitTest_eq, bitTest_eq, bitSet, readWord_orWord hm, bitWord]
  by_cases h : b / 32 = c / 32
  · rw [if_pos h, BitVec.getLsbD_or, bitMask_getLsbD]
    congr 1
    rw [decide_eq_decide]
    omega
  · rw [if_neg h]
    have : ¬ c = b := fun e => h (by rw [e])
    simp [this]

theorem readWord_bitSet_of_ne {m : List Host.Cell} (hm : Memory.wf m) {b w : Nat} (h : bitWord b ≠ w) :
    readWord (bitSet m b) w = readWord m w := by
  rw [bitSet, readWord_orWord hm, if_neg h]

theorem mem_bitSet {m : List Host.Cell} {b : Nat} {c : Host.Cell} (h : c ∈ bitSet m b) :
    c.1 / 4 = bitWord b ∨ c ∈ m := mem_orWord h

theorem wf_bitSetAll {m : List Host.Cell} (hm : Memory.wf m) (bs : List Nat) : Memory.wf (bitSetAll m bs) := by
  induction bs generalizing m with
  | nil => exact hm
  | cons b bs ih => exact ih (wf_bitSet hm b)

/-- Setting the bits of a sequence sets those and no other (R132). -/
theorem bitTest_bitSetAll {m : List Host.Cell} (hm : Memory.wf m) (bs : List Nat) (c : Nat) :
    bitTest (bitSetAll m bs) c = (bitTest m c || decide (c ∈ bs)) := by
  induction bs generalizing m with
  | nil => simp [bitSetAll]
  | cons b bs ih =>
    show bitTest (bitSetAll (bitSet m b) bs) c = _
    rw [ih (wf_bitSet hm b), bitTest_bitSet hm]
    by_cases h1 : c = b <;> by_cases h2 : c ∈ bs <;> simp [h1, h2]

theorem readWord_bitSetAll_of_ne {m : List Host.Cell} (hm : Memory.wf m) {bs : List Nat} {w : Nat}
    (h : ∀ b ∈ bs, bitWord b ≠ w) : readWord (bitSetAll m bs) w = readWord m w := by
  induction bs generalizing m with
  | nil => rfl
  | cons b bs ih =>
    show readWord (bitSetAll (bitSet m b) bs) w = _
    rw [ih (wf_bitSet hm b) fun c hc => h c (by simp [hc]), readWord_bitSet_of_ne hm (h b (by simp))]

theorem mem_bitSetAll {m : List Host.Cell} {bs : List Nat} {c : Host.Cell} (h : c ∈ bitSetAll m bs) :
    (∃ b ∈ bs, c.1 / 4 = bitWord b) ∨ c ∈ m := by
  induction bs generalizing m with
  | nil => exact .inr h
  | cons b bs ih =>
    rcases ih (m := bitSet m b) h with ⟨d, hd, hc⟩ | h
    · exact .inl ⟨d, by simp [hd], hc⟩
    · rcases mem_bitSet h with h | h
      · exact .inl ⟨b, by simp, h⟩
      · exact .inr h

/-- Equal bits make equal words. -/
theorem readWord_eq_of_bits {m n : List Host.Cell} (h : ∀ b, bitTest m b = bitTest n b) (w : Nat) :
    readWord m w = readWord n w := by
  apply BitVec.eq_of_getLsbD_eq
  intro i hi
  have := h (32 * w + i)
  rw [bitTest_eq, bitTest_eq] at this
  have e1 : (32 * w + i) / 32 = w := by omega
  have e2 : (32 * w + i) % 32 = i := by omega
  rwa [e1, e2] at this

/-! ## Merge -/

theorem wf_mergeOrFrom {m : List Host.Cell} (hm : Memory.wf m) (i : Nat) (ws : List Word) :
    Memory.wf (mergeOrFrom m i ws) := by
  induction ws generalizing m i with
  | nil => exact hm
  | cons w ws ih => exact ih (wf_orWord hm _ _) _

theorem readWord_mergeOrFrom {m : List Host.Cell} (hm : Memory.wf m) (i : Nat) (ws : List Word) (j : Nat) :
    readWord (mergeOrFrom m i ws) j =
      if i ≤ j ∧ j < i + ws.length then readWord m j ||| ws.getD (j - i) 0 else readWord m j := by
  induction ws generalizing m i with
  | nil => rw [mergeOrFrom, if_neg (by simp)]
  | cons w ws ih =>
    rw [mergeOrFrom, ih (wf_orWord hm _ _), readWord_orWord hm]
    simp only [List.length_cons]
    by_cases h1 : i = j
    · subst h1
      rw [if_neg (by omega), if_pos rfl, if_pos (by omega)]
      simp
    · by_cases h2 : i + 1 ≤ j ∧ j < i + 1 + ws.length
      · rw [if_pos h2, if_neg h1, if_pos (by omega)]
        have e : j - i = (j - (i + 1)) + 1 := by omega
        rw [e, List.getD_cons_succ]
      · rw [if_neg h2, if_neg h1, if_neg (by omega)]

theorem wf_mergeOr {m : List Host.Cell} (hm : Memory.wf m) (ws : List Word) : Memory.wf (mergeOr m ws) :=
  wf_mergeOrFrom hm 0 ws

/-- A merge ORs word by word (R113). -/
theorem readWord_mergeOr {m : List Host.Cell} (hm : Memory.wf m) (ws : List Word) (j : Nat) :
    readWord (mergeOr m ws) j = if j < ws.length then readWord m j ||| ws.getD j 0 else readWord m j := by
  rw [mergeOr, readWord_mergeOrFrom hm]
  simp

theorem mem_mergeOrFrom {m : List Host.Cell} {i : Nat} {ws : List Word} {c : Host.Cell}
    (h : c ∈ mergeOrFrom m i ws) : c.1 / 4 < i + ws.length ∨ c ∈ m := by
  induction ws generalizing m i with
  | nil => exact .inr h
  | cons w ws ih =>
    rcases ih h with h | h
    · left; simp only [List.length_cons]; omega
    · rcases mem_orWord h with h | h
      · left; simp only [List.length_cons]; omega
      · exact .inr h

theorem mem_mergeOr {m : List Host.Cell} {ws : List Word} {c : Host.Cell} (h : c ∈ mergeOr m ws) :
    c.1 / 4 < ws.length ∨ c ∈ m := by
  have := mem_mergeOrFrom h
  rwa [Nat.zero_add] at this

end Sys2Proof.Machine
end

