-- ==== Sys2Proof/Laws/Ops.lean ====
section
/-! SUPPORT. One spec lemma for each shared operation and each meaning: everything it can answer. Later proofs cite these
and do not unfold the meanings. -/

namespace Sys2Proof.Machine

/-- A next-state equation gives the state. -/
theorem next_inj {s t : State} (h : (Host.Outcome.next s : Result) = .next t) : s = t := by
  injection h

/-! ## Response headers in numbers -/

theorem errorByte_lt (e : ErrorCode) : (errorByte e).toNat < 8 := by cases e <;> decide

theorem flagBit_lt (f : Bool) : flagBit f < 2 := by cases f <;> decide

theorem responseHeader_toNat (opc : Byte) (e : ErrorCode) (f : Bool) :
    (responseHeader opc e f).toNat = opc.toNat * 2 ^ 24 + (errorByte e).toNat * 2 ^ 16 + flagBit f := by
  have := opc.isLt; have := errorByte_lt e; have := flagBit_lt f
  simp only [responseHeader, BitVec.toNat_ofNat]
  omega

/-! ## The shared checks -/

theorem whenConfigured_true {opc : Byte} {s : State} {go : Result} (h : s.configured = true) :
    whenConfigured opc s go = go := by rw [whenConfigured, if_pos h]

theorem whenConfigured_false {opc : Byte} {s : State} {go : Result} (h : s.configured = false) :
    whenConfigured opc s go = .next (raiseError opc .notConfigured s) := by
  rw [whenConfigured, if_neg (by simp [h])]

/-- What the CONFIGURED check answers with a next state. -/
theorem whenConfigured_next {opc : Byte} {s t : State} {go : Result} (h : whenConfigured opc s go = .next t) :
    (s.configured = false ∧ t = raiseError opc .notConfigured s) ∨ (s.configured = true ∧ go = .next t) := by
  cases hc : s.configured with
  | false => rw [whenConfigured_false hc] at h; exact .inl ⟨rfl, (next_inj h).symm⟩
  | true => rw [whenConfigured_true hc] at h; exact .inr ⟨rfl, h⟩

/-- What ADD, TEST and LOC share, with a next state. -/
theorem withLocations_next {opc : Byte} {key : List Sym} {s t : State} {go : List Nat → State}
    (h : withLocations opc key s go = .next t) :
    (s.configured = false ∧ t = raiseError opc .notConfigured s) ∨
      (s.configured = true ∧ mbits s ≠ 0 ∧ t = go (keyLocations s key)) := by
  rcases whenConfigured_next h with h | ⟨hc, h⟩
  · exact .inl h
  · split at h
    · nomatch h
    · rename_i hm
      exact .inr ⟨hc, hm, (next_inj h).symm⟩

theorem withLocations_of_configured {opc : Byte} {key : List Sym} {s : State} {go : List Nat → State}
    (hc : s.configured = true) (hm : mbits s ≠ 0) :
    withLocations opc key s go = .next (go (keyLocations s key)) := by
  rw [withLocations, whenConfigured_true hc, if_neg hm]

/-- The CONFIGURED check and an index check, as BSET, BTST and RDW make them. -/
theorem indexed_next {opc : Byte} {s t u : State} {legal : Bool}
    (h : whenConfigured opc s (if legal then .next u else .next (raiseError opc .range s)) = .next t) :
    (s.configured = false ∧ t = raiseError opc .notConfigured s) ∨
      (s.configured = true ∧ legal = true ∧ t = u) ∨
      (s.configured = true ∧ legal = false ∧ t = raiseError opc .range s) := by
  rcases whenConfigured_next h with h | ⟨hc, h⟩
  · exact .inl h
  · cases legal with
    | true => exact .inr (.inl ⟨hc, rfl, (next_inj h).symm⟩)
    | false => exact .inr (.inr ⟨hc, rfl, (next_inj h).symm⟩)

/-! ## The meanings -/

theorem initLegal_iff (n k : Word) (s : State) :
    initLegal n k s = true ↔ 1 ≤ n.toNat ∧ n.toNat ≤ s.cfg.nMax ∧ 1 ≤ k.toNat ∧ k.toNat ≤ s.cfg.kMax := by
  have hz : ∀ x : Word, (x == 0) = decide (x.toNat = 0) := by
    intro x
    rw [Bool.eq_iff_iff, beq_iff_eq, decide_eq_true_eq, ← BitVec.toNat_inj]
    rfl
  simp only [initLegal, hz, Bool.and_eq_true, Bool.not_eq_true', Bool.or_eq_false_iff, decide_eq_false_iff_not]
  omega

/-- INIT answers always: a new filter, or `ERR_INVALID_ARG`. -/
theorem execInit_cases (n k : Word) (s : State) :
    (initLegal n k s = true ∧
      execInit n k s = .next (respond (opCode .init) false [] (createFilter n k s))) ∨
    (initLegal n k s = false ∧ execInit n k s = .next (raiseError (opCode .init) .invalidArg s)) := by
  cases h : initLegal n k s with
  | true => exact .inl ⟨rfl, by rw [execInit, h]; rfl⟩
  | false => exact .inr ⟨rfl, by rw [execInit, h]; rfl⟩

theorem execAdd_next {key : List Sym} {s t : State} (h : execAdd key s = .next t) :
    (s.configured = false ∧ t = raiseError (opCode .add) .notConfigured s) ∨
      (s.configured = true ∧ mbits s ≠ 0 ∧
        t = respond (opCode .add) false [] { s with mem := bitSetAll s.mem (keyLocations s key) }) :=
  withLocations_next h

theorem execTest_next {key : List Sym} {s t : State} (h : execTest key s = .next t) :
    (s.configured = false ∧ t = raiseError (opCode .test) .notConfigured s) ∨
      (s.configured = true ∧ mbits s ≠ 0 ∧
        t = respond (opCode .test) ((keyLocations s key).all (bitTest s.mem)) [] s) :=
  withLocations_next h

theorem execLoc_next {key : List Sym} {s t : State} (h : execLoc key s = .next t) :
    (s.configured = false ∧ t = raiseError (opCode .loc) .notConfigured s) ∨
      (s.configured = true ∧ mbits s ≠ 0 ∧
        t = respond (opCode .loc) false ((keyLocations s key).map (BitVec.ofNat 32)) s) :=
  withLocations_next h

theorem execAdd_of_configured {key : List Sym} {s : State} (hc : s.configured = true) (hm : mbits s ≠ 0) :
    execAdd key s =
      .next (respond (opCode .add) false [] { s with mem := bitSetAll s.mem (keyLocations s key) }) :=
  withLocations_of_configured hc hm

theorem execTest_of_configured {key : List Sym} {s : State} (hc : s.configured = true) (hm : mbits s ≠ 0) :
    execTest key s = .next (respond (opCode .test) ((keyLocations s key).all (bitTest s.mem)) [] s) :=
  withLocations_of_configured hc hm

theorem execLoc_of_configured {key : List Sym} {s : State} (hc : s.configured = true) (hm : mbits s ≠ 0) :
    execLoc key s = .next (respond (opCode .loc) false ((keyLocations s key).map (BitVec.ofNat 32)) s) :=
  withLocations_of_configured hc hm

theorem execHash_eq (seed : Word) (key : List Sym) (s : State) :
    execHash seed key s = .next (respond (opCode .hash) false [fnv1a s.cfg.mix key seed] s) := rfl

theorem execMerge_next {ok on : Word} {ow : List Word} {s t : State} (h : execMerge ok on ow s = .next t) :
    (s.configured = false ∧ t = raiseError (opCode .merge) .notConfigured s) ∨
      (s.configured = true ∧ ok ≠ s.nhash ∧ t = raiseError (opCode .merge) .incompatHashes s) ∨
      (s.configured = true ∧ ok = s.nhash ∧ on ≠ s.nwords ∧ t = raiseError (opCode .merge) .incompatSize s) ∨
      (s.configured = true ∧ ok = s.nhash ∧ on = s.nwords ∧
        t = respond (opCode .merge) false [] { s with mem := mergeOr s.mem ow }) := by
  rcases whenConfigured_next h with h | ⟨hc, h⟩
  · exact .inl h
  · split at h
    · rename_i h1
      exact .inr (.inl ⟨hc, h1, (next_inj h).symm⟩)
    · rename_i h1
      split at h
      · rename_i h2
        exact .inr (.inr (.inl ⟨hc, not_not.mp h1, h2, (next_inj h).symm⟩))
      · rename_i h2
        exact .inr (.inr (.inr ⟨hc, not_not.mp h1, not_not.mp h2, (next_inj h).symm⟩))

theorem execRdw_next {idx : Word} {s t : State} (h : execRdw idx s = .next t) :
    (s.configured = false ∧ t = raiseError (opCode .rdw) .notConfigured s) ∨
      (s.configured = true ∧ wordIndexLegal idx s = true ∧
        t = respond (opCode .rdw) false [readWord s.mem idx.toNat] s) ∨
      (s.configured = true ∧ wordIndexLegal idx s = false ∧ t = raiseError (opCode .rdw) .range s) :=
  indexed_next h

theorem execBset_next {idx : Word} {s t : State} (h : execBset idx s = .next t) :
    (s.configured = false ∧ t = raiseError (opCode .bset) .notConfigured s) ∨
      (s.configured = true ∧ bitIndexLegal idx s = true ∧
        t = respond (opCode .bset) false [] { s with mem := bitSet s.mem idx.toNat }) ∨
      (s.configured = true ∧ bitIndexLegal idx s = false ∧ t = raiseError (opCode .bset) .range s) :=
  indexed_next h

theorem execBtst_next {idx : Word} {s t : State} (h : execBtst idx s = .next t) :
    (s.configured = false ∧ t = raiseError (opCode .btst) .notConfigured s) ∨
      (s.configured = true ∧ bitIndexLegal idx s = true ∧
        t = respond (opCode .btst) (bitTest s.mem idx.toNat) [] s) ∨
      (s.configured = true ∧ bitIndexLegal idx s = false ∧ t = raiseError (opCode .btst) .range s) :=
  indexed_next h

/-- RDR answers always: the register named, or `ERR_RANGE`. -/
theorem execRdr_cases (reg : Byte) (s : State) :
    (∃ v, readRegister reg s = some v ∧ execRdr reg s = .next (respond (opCode .rdr) false [v] s)) ∨
      (readRegister reg s = none ∧ execRdr reg s = .next (raiseError (opCode .rdr) .range s)) := by
  cases h : readRegister reg s with
  | some v => exact .inl ⟨v, rfl, by rw [execRdr, h]⟩
  | none => exact .inr ⟨rfl, by rw [execRdr, h]⟩

end Sys2Proof.Machine
end

