-- ==== Sys2Proof/Laws/HostProcedures.lean ====
section
/-! SUPPORT. The host procedures: the base64 digits, the code a host reads from a response, and what sending commands
comes to, said once. -/

namespace Sys2Proof.Machine

theorem base64Value_base64Digit {v : Nat} (h : v < 64) : base64Value (base64Digit v) = some v := by
  revert v
  decide

@[simp] theorem base64Value_padding : base64Value '=' = none := by decide

@[simp] theorem errorOfByte_errorByte (e : ErrorCode) : errorOfByte (errorByte e) = some e := by cases e <;> rfl

theorem errorField_responseHeader (opc : Byte) (e : ErrorCode) (f : Bool) :
    (responseHeader opc e f).extractLsb' 16 8 = errorByte e := by
  apply BitVec.eq_of_toNat_eq
  rw [BitVec.extractLsb'_toNat, Nat.shiftRight_eq_div_pow, responseHeader_toNat]
  have h1 := errorByte_lt e
  have h2 := flagBit_lt f
  omega

theorem flagBit_responseHeader (opc : Byte) (e : ErrorCode) (f : Bool) :
    (responseHeader opc e f).getLsbD 0 = f := by
  have h : (responseHeader opc e f).toNat % 2 = flagBit f := by
    have hf := flagBit_lt f
    rw [responseHeader_toNat]
    omega
  rw [BitVec.getLsbD, Nat.testBit_zero, h]
  cases f <;> rfl

/-- The header a host finds is the one the engine answered. -/
theorem answeredHeader_emit (s u : State) (h : Word) (ws : List Word) (hr : u.rsp = s.rsp) :
    answeredHeader s (emit u (h :: ws)) = some h := by
  show (u.rsp ++ h :: ws)[s.rsp.length]? = _
  rw [hr, List.getElem?_append_right (Nat.le_refl _), Nat.sub_self, List.getElem?_cons_zero]

theorem answeredError_emit (s u : State) (opc : Byte) (e : ErrorCode) (f : Bool) (ws : List Word) (h : u.rsp = s.rsp) :
    answeredError s (emit u (responseHeader opc e f :: ws)) = some e := by
  rw [answeredError, answeredHeader_emit s u _ ws h, Option.bind_some, errorField_responseHeader, errorOfByte_errorByte]

theorem answeredFlag_emit (s u : State) (opc : Byte) (e : ErrorCode) (f : Bool) (ws : List Word) (h : u.rsp = s.rsp) :
    answeredFlag s (emit u (responseHeader opc e f :: ws)) = some f := by
  rw [answeredFlag, answeredHeader_emit s u _ ws h, Option.map_some, flagBit_responseHeader]

theorem answeredWords_emit (s u : State) (h : Word) (ws : List Word) (hr : u.rsp = s.rsp) :
    answeredWords s (emit u (h :: ws)) = ws := by
  show (u.rsp ++ h :: ws).drop (s.rsp.length + 1) = ws
  rw [hr, List.drop_append, List.drop_of_length_le (Nat.le_succ _), Nat.add_sub_cancel_left]
  rfl

@[simp] theorem converse_nil (s : State) : converse [] s = some (.ok, [], s) := rfl

/-- A command that succeeds gives its result words and lets the next one be sent. -/
theorem converse_ok {i : Instr} {is : List Instr} {s t : State} (h : exec i s = .next t)
    (ha : answeredError s t = some .ok) :
    converse (i :: is) s = (converse is t).map fun r => (r.1, answeredWords s t ++ r.2.1, r.2.2) := by
  rw [converse, h]
  simp [ha]

/-- A command that answers an error is the last one sent. -/
theorem converse_error {i : Instr} {is : List Instr} {s t : State} {e : ErrorCode} (h : exec i s = .next t)
    (ha : answeredError s t = some e) (he : e ≠ .ok) : converse (i :: is) s = some (e, [], t) := by
  rw [converse, h]
  cases e <;> simp_all

@[simp] theorem sendAll_nil (s : State) : sendAll [] s = some (.ok, s) := rfl

theorem sendAll_ok {i : Instr} {is : List Instr} {s t : State} (h : exec i s = .next t)
    (ha : answeredError s t = some .ok) : sendAll (i :: is) s = sendAll is t := by
  rw [sendAll, converse_ok h ha, Option.map_map]
  rfl

theorem sendAll_error {i : Instr} {is : List Instr} {s t : State} {e : ErrorCode} (h : exec i s = .next t)
    (ha : answeredError s t = some e) (he : e ≠ .ok) : sendAll (i :: is) s = some (e, t) := by
  rw [sendAll, converse_error h ha he]
  rfl

@[simp] theorem runPlan_raise (report : ErrorCode → Report) (e : SourceError) (s : State) :
    runPlan report (.raise e) s = some (.error e, s) := rfl

theorem runPlan_send (report : ErrorCode → Report) (is : List Instr) (s : State) :
    runPlan report (.send is) s = (sendAll is s).map fun r => (report r.1, r.2) := rfl

/-- A byte count that is no multiple of 4 makes no words. -/
theorem wordsOfBytes_of_partial : ∀ {bytes : List Byte}, bytes.length % 4 ≠ 0 → wordsOfBytes bytes = none
  | [], h => absurd rfl h
  | [_], _ => rfl
  | [_, _], _ => rfl
  | [_, _, _], _ => rfl
  | _ :: _ :: _ :: _ :: rest, h => by
    have hr : rest.length % 4 ≠ 0 := by
      simp only [List.length_cons] at h
      omega
    rw [wordsOfBytes, wordsOfBytes_of_partial hr]
    rfl

end Sys2Proof.Machine
end

