-- ==== Sys2Proof/Laws/Locations.lean ====
section
/-! SUPPORT. The laws of the floored remainder (00_scope R7) and of the location loop (41_location_generator R103). -/

namespace Sys2Proof.Machine

/-- The floored remainder is below the modulus. -/
theorem floorMod_lt (a : Int) {m : Nat} (hm : 0 < m) : floorMod a m < m := by
  have h1 := Int.emod_nonneg a (b := (m : Int)) (by omega)
  have h2 := Int.emod_lt_of_pos a (b := (m : Int)) (by omega)
  unfold floorMod
  omega

/-- The floored remainder as an integer. -/
theorem floorMod_cast (a : Int) {m : Nat} (hm : 0 < m) : (floorMod a m : Int) = a % (m : Int) := by
  have h1 := Int.emod_nonneg a (b := (m : Int)) (by omega)
  unfold floorMod
  omega

theorem locationLoop_length (m : Nat) (b : Int) (k x : Nat) : (locationLoop m b k x).length = k := by
  induction k generalizing x with
  | zero => rfl
  | succ k ih => rw [locationLoop, List.length_cons, ih]

/-- Every index of the loop is its start or a remainder. -/
theorem mem_locationLoop {m k x y : Nat} {b : Int} (h : y ∈ locationLoop m b k x) :
    y = x ∨ ∃ z : Int, y = floorMod z m := by
  induction k generalizing x with
  | zero => exact absurd h List.not_mem_nil
  | succ k ih =>
    rw [locationLoop] at h
    rcases List.mem_cons.mp h with h | h
    · exact .inl h
    · rcases ih h with h | h
      · exact .inr ⟨_, h⟩
      · exact .inr h

end Sys2Proof.Machine
end

