-- ==== Sys2Proof/Laws/PerInstr.lean ====
section
/-! SUPPORT. A statement made per command: the packet a well-formed term is encoded to has the opcode of its command,
clean reserved bits (30_encoding R53, R61) and exactly the payload length that R57 computes from it. -/

namespace Sys2Proof.Laws.PacketForm

/-- The encoded packet of a term is well-formed and as long as R57 says, whatever words follow it. -/
def Statement (i : Instr) : Prop :=
  i.WellFormed = true →
    headerOpc (headerWord (opOf i) (argOf i)) = opCode (opOf i) ∧
    headerClean (opOf i) (headerWord (opOf i) (argOf i)) = true ∧
    symbolsClean (opOf i) (payloadOf i) = true ∧
    ∀ rest, payloadLength (opOf i) (headerWord (opOf i) (argOf i)) (payloadOf i ++ rest) =
      some (payloadOf i).length

theorem init (n k : Word) : Statement (.init n k) := fun _ =>
  ⟨headerOpc_headerWord _ _, by simp [headerClean, opOf, opFormat, argOf], rfl, fun _ => rfl⟩

theorem add (key : List Sym) : Statement (.add key) := fun h =>
  ⟨headerOpc_headerWord _ _, by simp [headerClean, opOf, opFormat], all_symbolRsv_symbolWord key, fun _ => by
    simp [payloadLength, opOf, opFormat, argOf, payloadOf, keyLen_toNat (of_decide_eq_true h)]⟩

theorem test (key : List Sym) : Statement (.test key) := fun h =>
  ⟨headerOpc_headerWord _ _, by simp [headerClean, opOf, opFormat], all_symbolRsv_symbolWord key, fun _ => by
    simp [payloadLength, opOf, opFormat, argOf, payloadOf, keyLen_toNat (of_decide_eq_true h)]⟩

theorem loc (key : List Sym) : Statement (.loc key) := fun h =>
  ⟨headerOpc_headerWord _ _, by simp [headerClean, opOf, opFormat], all_symbolRsv_symbolWord key, fun _ => by
    simp [payloadLength, opOf, opFormat, argOf, payloadOf, keyLen_toNat (of_decide_eq_true h)]⟩

theorem hash (seed : Word) (key : List Sym) : Statement (.hash seed key) := fun h =>
  ⟨headerOpc_headerWord _ _, by simp [headerClean, opOf, opFormat], all_symbolRsv_symbolWord key, fun _ => by
    simp [payloadLength, opOf, opFormat, argOf, payloadOf, keyLen_toNat (of_decide_eq_true h), Nat.add_comm]⟩

theorem merge (ok on : Word) (ow : List Word) : Statement (.merge ok on ow) := fun h =>
  ⟨headerOpc_headerWord _ _, by simp [headerClean, opOf, opFormat, argOf], rfl, fun _ => by
    have hl : ow.length = on.toNat := eq_of_beq h
    simp only [payloadLength, opOf, opFormat, payloadOf, List.cons_append, List.length_cons, hl]
    rw [Nat.add_comm]⟩

theorem rdw (idx : Word) : Statement (.rdw idx) := fun _ =>
  ⟨headerOpc_headerWord _ _, by simp [headerClean, opOf, opFormat, argOf], rfl, fun _ => rfl⟩

theorem rdr (reg : Byte) : Statement (.rdr reg) := fun _ =>
  ⟨headerOpc_headerWord _ _, by
    have h : headerArgHigh (headerWord .rdr (reg.setWidth 16)) = 0 := by
      apply BitVec.eq_of_toNat_eq
      have := reg.isLt
      rw [headerArgHigh_toNat, headerWord_toNat]
      simp only [BitVec.toNat_setWidth, BitVec.ofNat_eq_ofNat, BitVec.toNat_ofNat]
      have : (opCode .rdr).toNat = 8 := rfl
      omega
    simp [headerClean, opOf, opFormat, argOf, h], rfl, fun _ => rfl⟩

theorem bset (idx : Word) : Statement (.bset idx) := fun _ =>
  ⟨headerOpc_headerWord _ _, by simp [headerClean, opOf, opFormat, argOf], rfl, fun _ => rfl⟩

theorem btst (idx : Word) : Statement (.btst idx) := fun _ =>
  ⟨headerOpc_headerWord _ _, by simp [headerClean, opOf, opFormat, argOf], rfl, fun _ => rfl⟩

end Sys2Proof.Laws.PacketForm
end

