-- ==== Sys2Proof/Laws/Ports.lean ====
section
/-! SUPPORT. Everything a step can do, said once: reset, a response word moved or held, a packet held, an error packet
answered, or a command executed (70_reset R200, R205, R206, R207; 30_encoding R60, R61). -/

namespace Sys2Proof.Machine

theorem nextPhase_reset {s : State} (h : s.rst = true) : nextPhase s = .settled (resetEngine s) := by
  rw [nextPhase, if_pos h]

theorem nextPhase_receive {s : State} (h : s.rst = false) (hr : s.rsp = []) : nextPhase s = receivePacket s := by
  rw [nextPhase, if_neg (by simp [h]), if_pos (by simp [cmdReady, h, hr])]

theorem nextPhase_response {s : State} {w : Word} {ws : List Word} (h : s.rst = false) (hr : s.rsp = w :: ws) :
    nextPhase s = .settled (moveResponse s) := by
  rw [nextPhase, if_neg (by simp [h]), if_neg (by simp [cmdReady, hr])]

theorem moveResponse_ready {s : State} {w : Word} {ws : List Word} (h : s.rst = false) (hr : s.rsp = w :: ws)
    (hy : s.rspReady = true) : moveResponse s = { s with rsp := ws, rspStream := s.rspStream ++ [w] } := by
  rw [moveResponse, if_pos (by simp [rspValid, h, hr, hy])]
  simp [hr]

theorem moveResponse_held {s : State} (hy : s.rspReady = false) : moveResponse s = s := by
  rw [moveResponse, if_neg (by simp [hy])]

/-- A step that the ports finish. -/
theorem step_settled {s t : State} (h : nextPhase s = .settled t) : step s = .next t := by rw [step, h]

/-- A step that executes a command. -/
theorem step_command {s t : State} {i : Instr} (h : nextPhase s = .command i t) : step s = exec i t := by
  rw [step, h]

/-- What a step does, by what it finds at the ports. -/
theorem step_cases (s : State) :
    (s.rst = true ∧ step s = .next (resetEngine s)) ∨
    (s.rst = false ∧ (∃ w ws, s.rsp = w :: ws) ∧ step s = .next (moveResponse s)) ∨
    (s.rst = false ∧ s.rsp = [] ∧
      ((decode (s.scratch ++ s.cmdIn) = none ∧ step s = .next (holdPacket s)) ∨
      (∃ i rest, decode (s.scratch ++ s.cmdIn) = some (.command i, rest) ∧
        step s = exec i (consumePacket s rest)) ∨
      (∃ opc rest, decode (s.scratch ++ s.cmdIn) = some (.malformed opc, rest) ∧
        step s = .next (raiseError opc .malformed (consumePacket s rest))) ∨
      (∃ opc rest, decode (s.scratch ++ s.cmdIn) = some (.illegal opc, rest) ∧
        step s = .next (raiseError opc .illegalCmd (consumePacket s rest))))) := by
  cases h : s.rst with
  | true => exact .inl ⟨rfl, step_settled (nextPhase_reset h)⟩
  | false =>
    cases hr : s.rsp with
    | cons w ws => exact .inr (.inl ⟨rfl, ⟨w, ws, rfl⟩, step_settled (nextPhase_response h hr)⟩)
    | nil =>
      have hp := nextPhase_receive h hr
      refine .inr (.inr ⟨rfl, rfl, ?_⟩)
      cases hd : decode (s.scratch ++ s.cmdIn) with
      | none => exact .inl ⟨rfl, step_settled (by rw [hp, receivePacket, hd])⟩
      | some pr =>
        obtain ⟨p, rest⟩ := pr
        cases p with
        | command i => exact .inr (.inl ⟨i, rest, rfl, step_command (by rw [hp, receivePacket, hd])⟩)
        | malformed opc => exact .inr (.inr (.inl ⟨opc, rest, rfl, step_settled (by rw [hp, receivePacket, hd])⟩))
        | illegal opc => exact .inr (.inr (.inr ⟨opc, rest, rfl, step_settled (by rw [hp, receivePacket, hd])⟩))

end Sys2Proof.Machine
end

