-- ==== Sys2Proof/Laws/Run.lean ====
section
/-! SUPPORT. The host's run of several steps, one step at a time. -/

namespace Sys2Proof.Machine

@[simp] theorem run_zero (s : State) : Host.Core.run core 0 s = .next s := rfl

/-- A run of one step more, on any machine of the host's interface. -/
theorem coreRun_succ (M : Host.Core) (k : Nat) (s : M.State) :
    Host.Core.run M (k + 1) s =
      match M.step s with
      | .next t => Host.Core.run M k t
      | .fault r => .fault r
      | .refused r => .refused r := rfl

/-- A run whose first step answers a next state goes on from there. -/
theorem run_succ {k : Nat} {s t : State} (h : step s = .next t) :
    Host.Core.run core (k + 1) s = Host.Core.run core k t := by
  have hs : core.step s = .next t := h
  exact (coreRun_succ core k s).trans (by rw [hs])

/-- A run of at least one step that reaches a next state has a first step that does. -/
theorem run_succ_inv {k : Nat} {s t : State} (h : Host.Core.run core (k + 1) s = .next t) :
    ∃ u, step s = .next u ∧ Host.Core.run core k u = .next t := by
  have h' := (coreRun_succ core k s).symm.trans h
  cases hs : step s with
  | next u => exact ⟨u, rfl, (run_succ hs).symm.trans h⟩
  | fault r =>
    have hs' : core.step s = .fault r := hs
    rw [hs'] at h'
    nomatch h'
  | refused r =>
    have hs' : core.step s = .refused r := hs
    rw [hs'] at h'
    nomatch h'

/-- A run that reaches a next state can be continued. -/
theorem run_add {k l : Nat} {s t : State} (h : Host.Core.run core k s = .next t) :
    Host.Core.run core (k + l) s = Host.Core.run core l t := by
  induction k generalizing s with
  | zero =>
    rw [run_zero] at h
    cases h
    rw [Nat.zero_add]
  | succ k ih =>
    obtain ⟨u, hu, hr⟩ := run_succ_inv h
    rw [Nat.add_right_comm, run_succ hu]
    exact ih hr

@[simp] theorem execAll_nil (s : State) : execAll [] s = .next s := rfl

/-- Commands after one that answers a next state. -/
theorem execAll_cons {i : Instr} {is : List Instr} {s t : State} (h : exec i s = .next t) :
    execAll (i :: is) s = execAll is t := by rw [execAll, h]

end Sys2Proof.Machine
end

