-- ==== Sys2Proof/Tests/Slice0.lean ====
section
/-! SUPPORT. Tests of the model against the vectors of spec/95_test_vectors.md, and a witness for every statement of
Certificates/Slice0/Obligations.lean that has hypotheses. -/

namespace Sys2Proof.Tests

open Sys2Proof Sys2Proof.Machine

/-! ## Helpers -/

/-- An engine of the reset configuration that holds a filter of `k` hashes with the given words. -/
def filter (k : Word) (ws : List Word) : State :=
  { State.reset with
    configured := true
    nwords := BitVec.ofNat 32 ws.length
    nhash := k
    mem := mergeOr [] ws }

/-- The same filter on an engine with `SIGNED_DIGEST = true`. -/
def signedFilter (k : Word) (ws : List Word) : State :=
  { filter k ws with cfg := { resetConfig with signedDigest := true } }

/-- The next state, if there is one. -/
def nextOf : Result → Option State
  | .next t => some t
  | .fault _ => none
  | .refused _ => none

/-- The offered response words and the words of the array after a command. -/
def answer (i : Instr) (s : State) : Option (List Word × List Word) :=
  (nextOf (exec i s)).map fun t => (t.rsp, arrayWords t)

/-- A result with its next state known is that next state. -/
theorem eq_next {r : Result} {t : State} (h : nextOf r = some t) : r = .next t := by
  cases r with
  | next u => exact congrArg _ (Option.some.inj h)
  | fault f => nomatch h
  | refused f => nomatch h

/-! ## Well-formedness: a term each check refuses, and one at the boundary (R65) -/

theorem test_wellFormed_add_long : (Instr.add (List.replicate 65536 0)).WellFormed = false := by
  rw [Instr.WellFormed, List.length_replicate]
  decide

theorem test_wellFormed_test_long : (Instr.test (List.replicate 65536 0)).WellFormed = false := by
  rw [Instr.WellFormed, List.length_replicate]
  decide

theorem test_wellFormed_loc_long : (Instr.loc (List.replicate 65536 0)).WellFormed = false := by
  rw [Instr.WellFormed, List.length_replicate]
  decide

theorem test_wellFormed_hash_long : (Instr.hash 0 (List.replicate 65536 0)).WellFormed = false := by
  rw [Instr.WellFormed, List.length_replicate]
  decide

theorem test_wellFormed_merge_short : (Instr.merge 1 2 [0]).WellFormed = false := by decide

theorem test_wellFormed_merge_long : (Instr.merge 1 2 [0, 0, 0]).WellFormed = false := by decide

theorem test_wellFormed_longest_key : (Instr.add (List.replicate 65535 0)).WellFormed = true := by
  rw [Instr.WellFormed, List.length_replicate]
  decide

/-! ## Decoding: one word sequence per command, written out from R54, R58 and R67 -/

/-- F1: `01000000 00000003 00000003`. -/
theorem test_decode_init : decode [0x01000000, 3, 4] = some (.command (.init 3 4), []) := by decide

/-- F2: `02000003 00000061 00000062 00000063`. -/
theorem test_decode_add :
    decode [0x02000003, 0x61, 0x62, 0x63] = some (.command (.add [0x61, 0x62, 0x63]), []) := by decide

/-- F12: `03000000`, and the word after it is the next header. -/
theorem test_decode_test : decode [0x03000000, 0x61] = some (.command (.test []), [0x61]) := by decide

/-- L2: `04000001 00000061`. -/
theorem test_decode_loc : decode [0x04000001, 0x61] = some (.command (.loc [0x61]), []) := by decide

/-- H14 with another seed: `SEED` comes before the symbols, and all 16 symbol bits count. -/
theorem test_decode_hash :
    decode [0x05000001, 0xFFFFFFFF, 0x20AC] = some (.command (.hash 0xFFFFFFFF [0x20AC]), []) := by decide

/-- B15: `06000000 00000001 00000002 0000FF00 00000001`. -/
theorem test_decode_merge :
    decode [0x06000000, 1, 2, 0xFF00, 1] = some (.command (.merge 1 2 [0xFF00, 1]), []) := by decide

/-- B9: `07000000 00000001`. -/
theorem test_decode_rdw : decode [0x07000000, 1] = some (.command (.rdw 1), []) := by decide

/-- F18: `08000003`. -/
theorem test_decode_rdr : decode [0x08000003] = some (.command (.rdr 3), []) := by decide

/-- B4: `09000000 00000025`. -/
theorem test_decode_bset : decode [0x09000000, 0x25] = some (.command (.bset 37), []) := by decide

/-- B13: `0A000000 FFFFFFFF`. -/
theorem test_decode_btst : decode [0x0A000000, 0xFFFFFFFF] = some (.command (.btst 0xFFFFFFFF), []) := by decide

/-- E3, E4, E27, Q2: the opcodes around the map are illegal, and one word is consumed. -/
theorem test_decode_illegal :
    decode [0x00000000, 5] = some (.illegal 0x00, [5]) ∧ decode [0x0B000000] = some (.illegal 0x0B, []) ∧
    decode [0x0C010000] = some (.illegal 0x0C, []) ∧ decode [0xFFFFFFFF] = some (.illegal 0xFF, []) := by decide

/-- E9, E10, E11, E19, E24, H15: one malformed packet of each format; the payload is consumed. -/
theorem test_decode_malformed :
    decode [0x02010001, 0x61, 9] = some (.malformed 2, [9]) ∧
    decode [0x02000001, 0x10061] = some (.malformed 2, []) ∧
    decode [0x07000001, 0] = some (.malformed 7, []) ∧ decode [0x08000100] = some (.malformed 8, []) ∧
    decode [0x06000001, 2, 2, 0xFFFFFFFF, 0xFFFFFFFF, 9] = some (.malformed 6, [9]) ∧
    decode [0x05000001, 0, 0x10061] = some (.malformed 5, []) ∧
    decode [0x01000001, 0, 0] = some (.malformed 1, []) := by decide

/-- R207: an ADD of two symbols with one sent, and a MERGE whose `ON` has not been sent, are incomplete. -/
theorem test_decode_incomplete : decode [0x02000002, 0x61] = none ∧ decode [0x06000000, 1] = none := by decide

/-- The encoder writes the packets of R67. -/
theorem test_encode :
    encode (.hash 0x5DF43149 [0x61]) = [0x05000001, 0x5DF43149, 0x61] ∧ encode (.rdr 0xFF) = [0x080000FF] ∧
    encode (.merge 4 1 [7]) = [0x06000000, 4, 1, 7] := by decide

/-- The words of an opcode-table row: INIT's row is its header, so both operands are 0. -/
theorem test_decodeTableWord :
    decodeTableWord 32 0x01000000 = some (.init 0 0) ∧ decodeTableWord 32 0x02000001 = some (.add [0]) ∧
    decodeTableWord 32 0x08000003 = some (.rdr 3) ∧ decodeTableWord 64 0x0900000025000000 = none ∧
    decodeTableWord 64 0x0000002509000000 = some (.bset 37) := by decide

/-- A table word is executed by the very next step (RDR STATUS after reset, E1). -/
theorem test_withFetchWord :
    (nextOf (step (State.reset.withFetchWord 32 0x08000000))).map (fun t => (t.rsp, t.cmdIn)) =
      some ([0x08000000, 0], []) := by decide

/-! ## The hash (sections 2 and 3 of the vectors) -/

theorem test_fnvMultiply :
    fnvMultiply 2 = 0x02000326 ∧ fnvMultiply 0x100 = 0x00019300 ∧ fnvMultiply 0x811C9DC5 = 0x050C5D1F ∧
    fnvMultiply 0x811C9DA4 = 0xE40C292C := by decide

theorem test_mixStated :
    mixStated 0x1A47E90B = 0x02062503 ∧ mixStated 0x100 = 0x256B79E3 ∧ mixStated 0x80000000 = 0xA908D480 ∧
    mixStated 0xFFFFFFFF = 0xAE2BFD40 := by decide

/-- The rows of `"hello"` and `"abc"`. -/
theorem test_digests :
    digestA .stated (keyOfString "hello") = 0xEB22D089 ∧ digestB .stated (keyOfString "hello") = 0x2B82E1FE ∧
    digestA .stated (keyOfString "abc") = 0x02062503 ∧ digestB .stated (keyOfString "abc") = 0x71BE2B33 := by decide

/-- The accumulator before the finishing mix for wide symbols. -/
theorem test_fold_wide :
    fnvAccumulate [0x0141] 0 = 0x2C7483B7 ∧ fnvAccumulate [0xFF00] 0 = 0x6E1E20CA ∧
    fnvAccumulate [0x00FF] 0 = 0x7A0B824E ∧ fnvAccumulate [0x20AC, 0x41] 0 = 0xDF57EEB8 := by decide

/-- H6: `HASH 1, "a"` after reset. -/
theorem test_hash_seed : answer (.hash 1 [0x61]) State.reset = some ([0x05000000, 0xC70DB401], []) := by decide

/-- H12: `HASH 0, [0x00FF, 0x0000]`. -/
theorem test_hash_two : answer (.hash 0 [0xFF, 0]) State.reset = some ([0x05000000, 0x624E9ED6], []) := by decide

/-! ## Locations (section 4) -/

/-- The exact sum: `m = 0xC0000000`, key `"z"`. -/
theorem test_exact_sum :
    locationsOf false 0x726C95EF 0x8F99ECA9 0xC0000000 3 = [1919718895, 1107722904, 295726913] := by decide

/-- `""` at `m = 96`, read unsigned and signed. -/
theorem test_locations_readings :
    locationsOf false 0x5902879E 0xA350BE17 96 5 = [30, 21, 12, 3, 90] ∧
    locationsOf true 0x5902879E 0xA350BE17 96 5 = [30, 53, 76, 3, 26] := by decide

/-- L2: `LOC "a"` after `INIT 3, 3`. -/
theorem test_loc : answer (.loc [0x61]) (filter 3 [0, 0, 0]) =
    some ([0x04000000, 0x4F, 0x1D, 0x4B], [0, 0, 0]) := by decide

/-- L5: the same with `SIGNED_DIGEST = true`. -/
theorem test_loc_signed : answer (.loc [0x61]) (signedFilter 3 [0, 0, 0]) =
    some ([0x04000000, 0x0F, 0x3D, 0x0B], [0, 0, 0]) := by decide

/-! ## Commands (sections 5, 6 and 8) -/

/-- F20: INIT on a configured engine. -/
theorem test_init : answer (.init 1 1) (filter 3 [0x20400008, 0x00000200, 0x00008800]) =
    some ([0x01000000], [0]) := by decide

/-- F21: `INIT 0, 1` changes nothing. -/
theorem test_init_zero : answer (.init 0 1) (filter 3 [0x20400008, 0x00000200, 0x00008800]) =
    some ([0x01010000], [0x20400008, 0x00000200, 0x00008800]) := by decide

/-- F8: `ADD "a"` to the filter that holds `"abc"`. -/
theorem test_add : answer (.add [0x61]) (filter 3 [0x00400008, 0x00000200, 0]) =
    some ([0x02000000], [0x20400008, 0x00000200, 0x00008800]) := by decide

/-- F6: `ADD "a"` with `SIGNED_DIGEST = true`. -/
theorem test_add_signed : answer (.add [0x61]) (signedFilter 3 [0, 0, 0]) =
    some ([0x02000000], [0x00008800, 0x20000000, 0]) := by decide

/-- F9: `TEST "abc"`. -/
theorem test_test : answer (.test [0x61, 0x62, 0x63]) (filter 3 [0x00400008, 0x00000200, 0]) =
    some ([0x03000001], [0x00400008, 0x00000200, 0]) := by decide

/-- F10: `TEST "hello"`: one of its bits is set. -/
theorem test_test_partial :
    answer (.test [0x68, 0x65, 0x6C, 0x6C, 0x6F]) (filter 3 [0x00400008, 0x00000200, 0]) =
      some ([0x03000000], [0x00400008, 0x00000200, 0]) := by decide

/-- B15: `MERGE 1, 2, [0x0000FF00, 0x00000001]`. -/
theorem test_merge : answer (.merge 1 2 [0xFF00, 1]) (filter 1 [0x80000001, 0x80000021]) =
    some ([0x06000000], [0x8000FF01, 0x80000021]) := by decide

/-- E22: both counts wrong: the hash count is answered. -/
theorem test_merge_both : answer (.merge 3 3 [1, 1, 1]) (filter 2 [0, 0x80000000]) =
    some ([0x06020000], [0, 0x80000000]) := by decide

/-- B9: `RDW 1`. -/
theorem test_rdw : answer (.rdw 1) (filter 1 [0x80000001, 0x00000021]) =
    some ([0x07000000, 0x21], [0x80000001, 0x00000021]) := by decide

/-- B14: `RDW 2` of two words. -/
theorem test_rdw_range : answer (.rdw 2) (filter 1 [0x80000001, 0x00000021]) =
    some ([0x07050000], [0x80000001, 0x00000021]) := by decide

/-- F17: `RDR MBITS`. -/
theorem test_rdr : answer (.rdr regMbits) (filter 3 [0, 0, 0]) = some ([0x08000000, 0x60], [0, 0, 0]) := by decide

/-- Q5: an unassigned register while not configured. -/
theorem test_rdr_range : answer (.rdr 4) State.reset = some ([0x08050000], []) := by decide

/-- B4: `BSET 37`. -/
theorem test_bset : answer (.bset 37) (filter 1 [0x80000001, 1]) = some ([0x09000000], [0x80000001, 0x21]) := by
  decide

/-- B11: `BSET 64` of 64 bits. -/
theorem test_bset_range : answer (.bset 64) (filter 1 [0x80000001, 0x80000021]) =
    some ([0x09050000], [0x80000001, 0x80000021]) := by decide

/-- E15: `BTST 63`. -/
theorem test_btst : answer (.btst 63) (filter 2 [0, 0x80000000]) = some ([0x0A000001], [0, 0x80000000]) := by decide

/-- Q3: out of range and not configured. -/
theorem test_btst_unconfigured : answer (.btst 9) State.reset = some ([0x0A040000], []) := by decide

/-! ## The host's side (section 7) -/

/-- The first record of the serialization vectors. -/
theorem test_saveRecord :
    saveRecord 3 [0x00400008, 0x00000200, 0] = { numHashes := 3, buckets := "CABAAAACAAAAAAAA".toList } := by decide

/-- The second record, with padding, loads by the two commands of P3. -/
theorem test_loadRecord :
    loadRecord { numHashes := 4, buckets := "qAqAAAiIAAAAggACCAAAoA==".toList } =
      .send [.init 4 4, .merge 4 4 [0x00800AA8, 0x00008808, 0x02008200, 0xA0000008]] := by decide

/-- A record of 15 bytes, one of a truncated text and one with a character outside the alphabet send nothing. -/
theorem test_loadRecord_bad :
    loadRecord { numHashes := 4, buckets := "qAqAAAiIAAAAggACCAAA".toList } = .raise .serializationError ∧
    loadRecord { numHashes := 4, buckets := "qAqAAAiIAAAAggACCAA".toList } = .raise .serializationError ∧
    loadRecord { numHashes := 4, buckets := "qAqA-A==".toList } = .raise .serializationError := by decide

/-- A line break in the text is a decoding failure: the model's choice (log 14). -/
theorem test_loadRecord_lineBreak :
    loadRecord { numHashes := 3, buckets := "CABAAAACAAAA\nAAAA".toList } = .raise .serializationError := by decide

/-- `num_hashes = 0`, and empty `buckets`, are a SerializationError, and the filter the engine holds stays (R160). -/
theorem test_load_zero :
    (load { numHashes := 0, buckets := "CABAAAACAAAAAAAA".toList } (filter 1 [5])).map
      (fun r => (r.1, r.2.rsp, arrayWords r.2)) = some (.error .serializationError, [0x01010000], [5]) ∧
    (load { numHashes := 3, buckets := [] } (filter 1 [5])).map
      (fun r => (r.1, r.2.rsp, arrayWords r.2)) = some (.error .serializationError, [0x01010000], [5]) := by decide

/-- The second record is loaded into an engine fresh from reset (P3). -/
theorem test_load :
    (load { numHashes := 4, buckets := "qAqAAAiIAAAAggACCAAAoA==".toList } State.reset).map
      (fun r => (r.1, r.2.nhash, arrayWords r.2)) =
      some (.done, 4, [0x00800AA8, 0x00008808, 0x02008200, 0xA0000008]) := by decide

/-- The first row of the sizing table: `INIT 2996, 7`. -/
theorem test_createPlan : createPlan 2996 7 = .send [.init 2996 7] := by decide

/-- R152: a filter that does not fit the engine is InvalidArgument. -/
theorem test_createPlan_large :
    createPlan (2 ^ 32) 7 = .raise .invalidArgument ∧
    (runPlan reportOf (createPlan (2 ^ 27) 7) State.reset).map (fun r => (r.1, r.2.configured)) =
      some (.error .invalidArgument, false) := by decide

/-- E20, E21: `union` of a filter with another hash count, and of one with another word count (R157). -/
theorem test_union_incompatible :
    (union 3 [1, 1] (filter 2 [0, 0x80000000])).map (fun r => (r.1, arrayWords r.2)) =
      some (.error .incompatibleFilter, [0, 0x80000000]) ∧
    (union 2 [1, 1, 1] (filter 2 [0, 0x80000000])).map (fun r => (r.1, arrayWords r.2)) =
      some (.error .incompatibleFilter, [0, 0x80000000]) := by decide

/-- F10 and F9 by the host's `test`, and an answer from an engine without a filter. -/
theorem test_testKey :
    (testKey keyOfString "hello" (filter 3 [0x00400008, 0x00000200, 0])).map (fun r => (r.1, r.2.1)) =
      some (.done, some false) ∧
    (testKey keyOfString "abc" (filter 3 [0x00400008, 0x00000200, 0])).map (fun r => (r.1, r.2.1)) =
      some (.done, some true) ∧
    (testKey keyOfString "abc" State.reset).map (fun r => (r.1, r.2.1)) = some (.engine .notConfigured, none) := by
  decide

/-- F2 by the host's `add`. -/
theorem test_addKey :
    (addKey keyOfString "abc" (filter 3 [0, 0, 0])).map (fun r => (r.1, arrayWords r.2)) =
      some (.done, [0x00400008, 0x00000200, 0]) := by decide

/-- The second record of the serialization vectors, saved from the end state of P2, with the responses of
P2's SAVE. -/
theorem test_save :
    (save (filter 4 [0x00800AA8, 0x00008808, 0x02008200, 0xA0000008])).map (fun r => (r.1, r.2.1, r.2.2.rsp)) =
      some (.done, some { numHashes := 4, buckets := "qAqAAAiIAAAAggACCAAAoA==".toList },
        [0x08000000, 4, 0x08000000, 4, 0x07000000, 0x00800AA8, 0x07000000, 0x00008808,
          0x07000000, 0x02008200, 0x07000000, 0xA0000008]) := by decide

/-- P2: filter A after its two keys is merged with filter B, read from its engine; A is `W` of P2's end state, and B answers
its counts and words. -/
theorem test_unionEngine :
    (unionEngine (filter 4 [0x000002A8, 0x00000800, 0x02008000, 0x20000000])
      (filter 4 [0x00800800, 0x00008008, 0x00000200, 0xA0000008])).map
        (fun r => (r.1, r.2.1.rsp, arrayWords r.2.2)) =
      some (.done, [0x08000000, 4, 0x08000000, 4, 0x07000000, 0x000002A8, 0x07000000, 0x00000800,
          0x07000000, 0x02008000, 0x07000000, 0x20000000],
        [0x00800AA8, 0x00008808, 0x02008200, 0xA0000008]) := by decide

/-- The second record of the serialization vectors merged into the empty filter of its geometry, and into another. -/
theorem test_unionRecord :
    (unionRecord { numHashes := 4, buckets := "qAqAAAiIAAAAggACCAAAoA==".toList } (filter 4 [0, 0, 0, 0])).map
      (fun r => (r.1, arrayWords r.2)) = some (.done, [0x00800AA8, 0x00008808, 0x02008200, 0xA0000008]) ∧
    (unionRecord { numHashes := 4, buckets := "qAqAAAiIAAAAggACCAAAoA==".toList } (filter 4 [0, 0, 0])).map
      (fun r => (r.1, arrayWords r.2)) = some (.error .incompatibleFilter, [0, 0, 0]) := by decide

/-! ## Witnesses: a state and operands that meet all hypotheses of a statement, one for each clause -/

/-- An engine after reset to which the host offers words. -/
def offered (ws : List Word) : State := hostSend ws State.reset

/-- A small filter in use: 2 words, 2 hashes, the bits 0, 31 and 63 set. -/
def used : State := filter 2 [0x80000001, 0x80000000]

theorem witness_used_inv : used.Inv ∧ used.configured = true := by decide

/-- EncodedCommandDecodesToItself. -/
theorem witness_encodedCommand :
    (Instr.hash 1 [2, 3]).WellFormed = true ∧ (Instr.merge 1 2 [8, 9]).WellFormed = true := by decide

/-- DecodedCommandIsItsPacket. -/
theorem witness_decodedCommand :
    decode [0x06000000, 1, 1, 7, 0x08000000] = some (.command (.merge 1 1 [7]), [0x08000000]) := by decide

/-- StreamDecodesPacketByPacket. -/
theorem witness_stream :
    (∀ i ∈ [Instr.rdr 1, .bset 5], i.WellFormed = true) ∧ decode [0x02000002, 0x61] = none := by decide

/-- WholePacketIsCommandOrMalformed, reserved bits clear: a MERGE, and the longest and the shortest format. -/
theorem witness_cleanPacket :
    PayloadOf 0x06000000 [1, 2, 8, 9] ∧ ¬ ReservedBitSet 0x06000000 [1, 2, 8, 9] ∧
    PayloadOf 0x08000003 [] ∧ ¬ ReservedBitSet 0x08000003 [] ∧
    PayloadOf 0x05000001 [0xFFFFFFFF, 0xFFFF] ∧ ¬ ReservedBitSet 0x05000001 [0xFFFFFFFF, 0xFFFF] := by
  refine ⟨.inr (.inr (.inr (.inr (.inr ⟨by decide, 1, 2, [8, 9], rfl, by decide⟩)))), ?_, ?_, ?_, ?_, ?_⟩
  · simp [ReservedBitSet, opcNumber]
  · exact .inr (.inr (.inr (.inr (.inl (by decide)))))
  · simp [ReservedBitSet, opcNumber]
  · exact .inr (.inl (by decide))
  · simp [ReservedBitSet, opcNumber]

/-- WholePacketIsCommandOrMalformed and MalformedPacketIsAnswered: the lowest reserved bit of each kind is set. -/
theorem witness_malformedPacket :
    PayloadOf 0x02010001 [0x61] ∧ ReservedBitSet 0x02010001 [0x61] ∧
    PayloadOf 0x01000001 [0, 0] ∧ ReservedBitSet 0x01000001 [0, 0] ∧
    PayloadOf 0x08000100 [] ∧ ReservedBitSet 0x08000100 [] ∧
    PayloadOf 0x04000001 [0x10000] ∧ ReservedBitSet 0x04000001 [0x10000] ∧
    PayloadOf 0x05000001 [0, 0x10000] ∧ ReservedBitSet 0x05000001 [0, 0x10000] := by
  refine ⟨.inl (by decide), .inl (by decide), .inr (.inr (.inr (.inl (by decide)))), .inr (.inl (by decide)),
    .inr (.inr (.inr (.inr (.inl (by decide))))), .inr (.inr (.inl (by decide))), .inl (by decide),
    .inr (.inr (.inr (.inl ⟨by decide, 0x10000, by simp, by decide⟩))), .inr (.inl (by decide)),
    .inr (.inr (.inr (.inr ⟨by decide, 0x10000, by simp, by decide⟩)))⟩

/-- IllegalOpcodeIsAnswered, at the three ends of its two ranges. -/
theorem witness_illegal :
    (Receiving (offered [0x00FFFFFF, 7]) ∧ pendingWords (offered [0x00FFFFFF, 7]) = [0x00FFFFFF, 7] ∧
      OpcodeUnassigned 0x00FFFFFF) ∧
    (Receiving (offered [0x0B000000]) ∧ pendingWords (offered [0x0B000000]) = [0x0B000000] ∧
      OpcodeUnassigned 0x0B000000) ∧
    (Receiving (offered [0xFFFFFFFF]) ∧ pendingWords (offered [0xFFFFFFFF]) = [0xFFFFFFFF] ∧
      OpcodeUnassigned 0xFFFFFFFF) :=
  ⟨⟨by decide, by decide, .inl (by decide)⟩, ⟨by decide, by decide, .inr (by decide)⟩,
    ⟨by decide, by decide, .inr (by decide)⟩⟩

/-- MalformedPacketIsAnswered: the state beside the packet of `witness_malformedPacket`. -/
theorem witness_malformed :
    Receiving (offered [0x02010001, 0x61, 9]) ∧
    pendingWords (offered [0x02010001, 0x61, 9]) = 0x02010001 :: [0x61] ++ [9] := by decide

/-- IncompletePacketIsHeld: an ADD of two symbols with one sent, and a MERGE without its `ON`. -/
theorem witness_incomplete :
    (Receiving (offered [0x02000002, 0x61]) ∧ PayloadOf 0x02000002 ([0x61] ++ [0x62]) ∧
      pendingWords (offered [0x02000002, 0x61]) = 0x02000002 :: [0x61]) ∧
    (Receiving (offered [0x06000000, 1]) ∧ PayloadOf 0x06000000 ([1] ++ [0]) ∧
      pendingWords (offered [0x06000000, 1]) = 0x06000000 :: [1]) :=
  ⟨⟨by decide, .inl (by decide), by decide⟩,
    ⟨by decide, .inr (.inr (.inr (.inr (.inr ⟨by decide, 1, 0, [], rfl, by decide⟩)))), by decide⟩⟩

/-- StepRunsTheDecodedCommand: a packet that is partly in scratch already. -/
theorem witness_stepRuns :
    let s : State := { used with scratch := [0x09000000], cmdIn := [5, 0x08000000] }
    Receiving s ∧ decode (pendingWords s) = some (.command (.bset 5), [0x08000000]) := by decide

/-- ResponseIsHeldUntilAccepted, both clauses. -/
theorem witness_response :
    ({ used with rsp := [7, 8], rspReady := false } : State).rst = false ∧
    ({ used with rsp := [7, 8], rspReady := false } : State).rspReady = false ∧
    ({ used with rsp := [7, 8] } : State).rst = false ∧ ({ used with rsp := [7, 8] } : State).rspReady = true := by
  decide

/-- ResetPinGivesTheResetState: reset in the middle of a packet, with a response pending. -/
theorem witness_resetPin :
    ({ used with rst := true, scratch := [0x02000002], rsp := [7], cmdIn := [0x61] } : State).rst = true := by decide

/-- CommandRunsToItsLastResponseWord. -/
theorem witness_commandRuns :
    Receiving (offered (encode (.rdr 0) ++ [5])) ∧ (offered (encode (.rdr 0) ++ [5])).rspReady = true ∧
    (Instr.rdr 0).WellFormed = true ∧
    pendingWords (offered (encode (.rdr 0) ++ [5])) = encode (.rdr 0) ++ [5] ∧
    exec (.rdr 0) { offered (encode (.rdr 0) ++ [5]) with scratch := [], cmdIn := [5] } =
      .next { offered [5] with rsp := [0x08000000, 0] } :=
  ⟨by decide, by decide, by decide, by decide, eq_next (by decide)⟩

/-- CommandStreamRunsInOrder: INIT, then BSET, which succeeds because of it. -/
theorem witness_commandStream :
    let is : List Instr := [.init 1 1, .bset 5]
    let s := offered (is.flatMap encode ++ [9])
    Receiving s ∧ s.rspReady = true ∧ s.scratch = [] ∧ s.cmdIn = is.flatMap encode ++ [9] ∧
    (∀ i ∈ is, i.WellFormed = true) ∧
    execAll is { s with cmdIn := [9] } =
      .next { filter 1 [0x20] with cmdIn := [9], rsp := [0x01000000, 0x09000000] } :=
  ⟨by decide, by decide, by decide, by decide, by decide, eq_next (by decide)⟩

/-- InvariantHoldsAtReset: the smallest and the largest legal configuration. -/
theorem witness_legalConfig :
    ({ resetConfig with nMax := 1, kMax := 1, signedDigest := true, mix := .free 0 } : Config).Legal ∧
    resetConfig.Legal := by decide

/-- StepKeepsInvariant and StepNeverStops. -/
theorem witness_stepInv :
    ({ used with cmdIn := encode (.bset 5) } : State).Inv ∧
    step { used with cmdIn := encode (.bset 5) } = .next { filter 2 [0x80000021, 0x80000000] with rsp := [0x09000000] } :=
  ⟨by decide, eq_next (by decide)⟩

/-- OnlyInitChangesTheRegisters: a step that changes them, and one that does not. -/
theorem witness_onlyInit :
    ({ used with cmdIn := encode (.init 1 1) } : State).rst = false ∧
    step { used with cmdIn := encode (.init 1 1) } = .next { filter 1 [0] with rsp := [0x01000000] } ∧
    step used = .next used :=
  ⟨by decide, eq_next (by decide), eq_next (by decide)⟩

/-- SetBitsStaySet. -/
theorem witness_setBits :
    used.Inv ∧ (∀ i ∈ [Instr.bset 5, .merge 2 2 [0, 1]], isInit i = false ∧ i.WellFormed = true) ∧
    execAll [.bset 5, .merge 2 2 [0, 1]] used =
      .next { filter 2 [0x80000021, 0x80000001] with rsp := [0x09000000, 0x06000000] } :=
  ⟨by decide, by decide, eq_next (by decide)⟩

/-- CommandsLeaveRegistersAndPorts and OneResponsePerCommand: every command answers a next state here. -/
theorem witness_everyCommand :
    (∃ t, exec (.init 1 1) used = .next t) ∧ (∃ t, exec (.add [0x61]) used = .next t) ∧
    (∃ t, exec (.test [0x61]) used = .next t) ∧ (∃ t, exec (.loc [0x61]) used = .next t) ∧
    (∃ t, exec (.hash 0 [0x61]) used = .next t) ∧ (∃ t, exec (.merge 2 2 [1, 1]) used = .next t) ∧
    (∃ t, exec (.rdw 1) used = .next t) ∧ (∃ t, exec (.rdr 2) used = .next t) ∧
    (∃ t, exec (.bset 5) used = .next t) ∧ (∃ t, exec (.btst 63) used = .next t) :=
  ⟨⟨_, rfl⟩, ⟨_, rfl⟩, ⟨_, rfl⟩, ⟨_, rfl⟩, ⟨_, rfl⟩, ⟨_, rfl⟩, ⟨_, rfl⟩, ⟨_, rfl⟩, ⟨_, rfl⟩, ⟨_, rfl⟩⟩

/-- ReadersChangeNothing: each of the six commands. -/
theorem witness_readers :
    exec (.test []) used = .next { used with rsp := [0x03000000] } ∧
    exec (.btst 63) used = .next { used with rsp := [0x0A000001] } ∧
    exec (.rdw 1) used = .next { used with rsp := [0x07000000, 0x80000000] } ∧
    exec (.rdr 3) used = .next { used with rsp := [0x08000000, 2] } ∧
    exec (.loc []) used = .next { used with rsp := [0x04000000, 30, 53] } ∧
    exec (.hash 0 []) used = .next { used with rsp := [0x05000000, 0x5902879E] } :=
  ⟨eq_next (by decide), eq_next (by decide), eq_next (by decide), eq_next (by decide), eq_next (by decide),
    eq_next (by decide)⟩

/-- WritersAreIdempotent: each of the three commands. -/
theorem witness_writers :
    used.Inv ∧ (Instr.merge 2 2 [2, 0]).WellFormed = true ∧ (Instr.add []).WellFormed = true ∧
    (Instr.bset 5).WellFormed = true ∧
    exec (.add []) used = .next { filter 2 [0xC0000001, 0x80200000] with rsp := [0x02000000] } ∧
    exec (.bset 5) used = .next { filter 2 [0x80000021, 0x80000000] with rsp := [0x09000000] } ∧
    exec (.merge 2 2 [2, 0]) used = .next { filter 2 [0x80000003, 0x80000000] with rsp := [0x06000000] } :=
  ⟨by decide, by decide, by decide, by decide, eq_next (by decide), eq_next (by decide), eq_next (by decide)⟩

/-- ErrorChangesNothing and ErrorMatrixHolds: one error of every kind a command can answer. -/
theorem witness_errors :
    (exec (.init 0 1) used = .next { used with rsp := [0x01010000] } ∧ responseErr 0x01010000 = 1) ∧
    (exec (.add []) State.reset = .next { State.reset with rsp := [0x02040000] } ∧ responseErr 0x02040000 = 4) ∧
    (exec (.merge 3 2 [0, 0]) used = .next { used with rsp := [0x06020000] } ∧ responseErr 0x06020000 = 2) ∧
    (exec (.merge 2 3 [0, 0, 0]) used = .next { used with rsp := [0x06030000] } ∧ responseErr 0x06030000 = 3) ∧
    (exec (.rdr 4) used = .next { used with rsp := [0x08050000] } ∧ responseErr 0x08050000 = 5) :=
  ⟨⟨eq_next (by decide), by decide⟩, ⟨eq_next (by decide), by decide⟩, ⟨eq_next (by decide), by decide⟩,
    ⟨eq_next (by decide), by decide⟩, ⟨eq_next (by decide), by decide⟩⟩

/-- UnconfiguredEngineAnswersNotConfigured, both clauses. -/
theorem witness_unconfigured :
    State.reset.configured = false ∧
    exec (.init 0 0) State.reset = .next { State.reset with rsp := [0x01010000] } ∧
    exec (.rdr 0xFF) State.reset = .next { State.reset with rsp := [0x08050000] } ∧
    exec (.hash 0x811C9DC5 []) State.reset = .next { State.reset with rsp := [0x05000000, 0] } :=
  ⟨by decide, eq_next (by decide), eq_next (by decide), eq_next (by decide)⟩

/-- ConfiguredWithoutWordsFaults. -/
theorem witness_withoutWords :
    ({ State.reset with configured := true } : State).configured = true ∧
    ({ State.reset with configured := true } : State).nwords = 0 := by decide

/-- InitCreatesAnEmptyFilter and FreshFilterContainsNoKey: legal operands at both ends of their ranges, and the four ways
to be illegal at their boundaries. -/
theorem witness_init :
    let c : Config := { resetConfig with nMax := 4, kMax := 3 }
    (1 ≤ (1 : Word).toNat ∧ (1 : Word).toNat ≤ c.nMax ∧ (1 : Word).toNat ≤ c.kMax) ∧
    (1 ≤ (4 : Word).toNat ∧ (4 : Word).toNat ≤ c.nMax ∧ 1 ≤ (3 : Word).toNat ∧ (3 : Word).toNat ≤ c.kMax) ∧
    (0 : Word).toNat = 0 ∧ c.nMax < (5 : Word).toNat ∧ c.kMax < (4 : Word).toNat ∧
    exec (.init 4 3) { used with cfg := c } = .next { filter 3 [0, 0, 0, 0] with cfg := c, rsp := [0x01000000] } :=
  ⟨by decide, by decide, by decide, by decide, by decide, eq_next (by decide)⟩

/-- TestAnswersTheConjunction: a key whose bits are all set, and one with a clear bit, on `ADD "abc"` of F2. -/
theorem witness_test :
    let s := filter 3 [0x00400008, 0x00000200, 0]
    s.Inv ∧ s.configured = true ∧
    (∀ i, i < s.nhash.toNat → bitTest s.mem (closedLocation s.cfg (mbits s) [0x61, 0x62, 0x63] i) = true) ∧
    (∃ i, i < s.nhash.toNat ∧ bitTest s.mem (closedLocation s.cfg (mbits s) [0x61] i) = false) :=
  ⟨by decide, by decide, by decide, 0, by decide⟩

/-- AddSetsTheKeysBits: an address outside the words of the locations. -/
theorem witness_add :
    used.Inv ∧ used.configured = true ∧ ∀ x ∈ keyLocations used [], 8 / 4 ≠ bitWord x := by decide

/-- MergeOrsTheOperandWordByWord: the three clauses. -/
theorem witness_merge :
    used.Inv ∧ used.configured = true ∧
    ([1, 1] : List Word).length = (2 : Word).toNat ∧ (2 : Word) = used.nhash ∧ (2 : Word) = used.nwords ∧
    (3 : Word) ≠ used.nhash ∧ ([1] : List Word).length = (1 : Word).toNat ∧ (1 : Word) ≠ used.nwords := by decide

/-- RdwAnswersTheWord: the last word and the first index beyond. -/
theorem witness_rdw :
    used.configured = true ∧ (1 : Word).toNat < used.nwords.toNat ∧ used.nwords.toNat ≤ (2 : Word).toNat := by decide

/-- RdrAnswersTheRegister: the four registers and the first number beyond. -/
theorem witness_rdr :
    used.Inv ∧ (0 : Byte).toNat = 0 ∧ (1 : Byte).toNat = 1 ∧ (2 : Byte).toNat = 2 ∧ (3 : Byte).toNat = 3 ∧
    4 ≤ (4 : Byte).toNat ∧ 4 ≤ (0xFF : Byte).toNat := by decide

/-- BsetSetsExactlyOneBit and BtstAnswersTheBit: the last bit, the first index beyond, and an address outside the word. -/
theorem witness_bset :
    used.Inv ∧ used.configured = true ∧ (63 : Word).toNat < 32 * used.nwords.toNat ∧
    32 * used.nwords.toNat ≤ (64 : Word).toNat ∧ 3 / 4 ≠ bitWord (63 : Word).toNat := by decide

/-- WideSymbolHashesAsTwoSymbols, at the lowest wide symbol. -/
theorem witness_wideSymbol : 256 ≤ (0x0100 : Sym).toNat := by decide

/-- ByteKeysHashAsStandardFnv, at the highest byte symbol. -/
theorem witness_byteKey : ∀ c ∈ ([0x61, 0xFF] : List Sym), c.toNat < 256 := by simp

/-- DifferentSeedsGiveDifferentDigests. -/
theorem witness_seeds : seedA ≠ seedB := by decide

/-- SignednessIsInvisibleForPowersOfTwo at its largest exponent, with digests the two readings take differently. -/
theorem witness_signedness : 32 ≤ 32 ∧ digestInt true 0xFFFFFFFF ≠ digestInt false 0xFFFFFFFF := by decide

/-- SubtractingGeneratorAgrees: a sum that reaches `m` and one that does not, with a negative digest. -/
theorem witness_subtracting :
    30 < 32 ∧ 32 ≤ 30 + floorMod (-30) 32 ∧ 29 < 32 ∧ ¬ 32 ≤ 29 + floorMod (-30) 32 := by decide

/-- LocationsAreInRange, LocationsHaveTheClosedForm, LocationsRepeatWithThePeriod: the bit count of one word. -/
theorem witness_bitCount : 0 < mbits (filter 1 [0]) := by decide

/-- NoFalseNegatives: an ADD, then commands between it and the TEST. -/
theorem witness_noFalseNegatives :
    used.Inv ∧ used.configured = true ∧
    exec (.add []) used = .next { filter 2 [0xC0000001, 0x80200000] with rsp := [0x02000000] } ∧
    (∀ i ∈ [Instr.rdw 9, .bset 5], isInit i = false ∧ i.WellFormed = true) ∧
    execAll [.rdw 9, .bset 5] { filter 2 [0xC0000001, 0x80200000] with rsp := [0x02000000] } =
      .next { filter 2 [0xC0000021, 0x80200000] with rsp := [0x02000000, 0x07050000, 0x09000000] } :=
  ⟨by decide, by decide, eq_next (by decide), by decide, eq_next (by decide)⟩

/-- UnionKeepsEveryKey: the key is in the receiver only, or in the operand only, which comes from a smaller engine. -/
theorem witness_union :
    let full := filter 2 [0x40000000, 0x00200000]
    let small : Config := { resetConfig with nMax := 2, kMax := 2 }
    (let s := full
     let o : State := { filter 2 [0, 0] with cfg := small }
     s.Inv ∧ o.Inv ∧ s.configured = true ∧ o.configured = true ∧ s.cfg.mix = o.cfg.mix ∧
     s.cfg.signedDigest = o.cfg.signedDigest ∧ s.nwords = o.nwords ∧ s.nhash = o.nhash ∧
     exec (.test []) s = .next { s with rsp := s.rsp ++ [0x03000001] }) ∧
    (let s := filter 2 [0, 0]
     let o : State := { full with cfg := small }
     s.Inv ∧ o.Inv ∧ s.configured = true ∧ o.configured = true ∧ s.cfg.mix = o.cfg.mix ∧
     s.cfg.signedDigest = o.cfg.signedDigest ∧ s.nwords = o.nwords ∧ s.nhash = o.nhash ∧
     exec (.test []) o = .next { o with rsp := o.rsp ++ [0x03000001] }) :=
  ⟨⟨by decide, by decide, by decide, by decide, by decide, by decide, by decide, by decide, eq_next (by decide)⟩,
    ⟨by decide, by decide, by decide, by decide, by decide, by decide, by decide, by decide, eq_next (by decide)⟩⟩

/-- SaveReadsTheWholeFilter and LoadRestoresTheSavedFilter: the smallest engine that the filter fits. -/
theorem witness_load :
    let r : State := { State.reset with cfg := { resetConfig with nMax := 2, kMax := 2 } }
    used.Inv ∧ used.configured = true ∧ used.nwords.toNat ≤ r.cfg.nMax ∧ used.nhash.toNat ≤ r.cfg.kMax := by decide

/-- LoadReportsToItsCaller: no decoding, 1 byte, then no hash, no word, one word too many, one hash too many, and a record
that fits exactly. -/
theorem witness_loadReports :
    let c : Config := { resetConfig with nMax := 1, kMax := 1 }
    c.Legal ∧ base64Decode "A".toList = none ∧
    (base64Decode "AA==".toList = some [0] ∧ ([0] : List Byte).length % 4 ≠ 0) ∧
    (base64Decode "CAAAAA==".toList = some (serialBytes [8]) ∧ (0 : Nat) < 2 ^ 32 ∧ ([8] : List Word).length < 2 ^ 32) ∧
    base64Decode [] = some (serialBytes []) ∧
    (base64Decode (base64Encode (serialBytes [8, 9])) = some (serialBytes [8, 9]) ∧
      c.nMax < ([8, 9] : List Word).length) ∧
    c.kMax < 2 ∧ ([8] : List Word) ≠ [] ∧ ([8] : List Word).length ≤ c.nMax ∧ 1 ≤ c.kMax := by decide

/-- UnionReportsToItsCaller, the counts: another hash count, another word count, both equal, and the first word count that
no operand holds. -/
theorem witness_unionReports :
    used.Inv ∧ used.configured = true ∧ ([1, 1] : List Word).length < 2 ^ 32 ∧ (3 : Word) ≠ used.nhash ∧
    ([1] : List Word).length < 2 ^ 32 ∧ ([1] : List Word).length ≠ used.nwords.toNat ∧ (2 : Word) = used.nhash ∧
    ([1, 1] : List Word).length = used.nwords.toNat ∧ ∃ ws : List Word, ws.length = 2 ^ 32 :=
  ⟨by decide, by decide, by decide, by decide, by decide, by decide, by decide, by decide,
    List.replicate (2 ^ 32) 0, List.length_replicate⟩

/-- UnionReportsToItsCaller, the records: no decoding, 1 byte, and one word. -/
theorem witness_unionRecord :
    base64Decode "A".toList = none ∧
    (base64Decode "AA==".toList = some [0] ∧ ([0] : List Byte).length % 4 ≠ 0) ∧
    base64Decode "CAAAAA==".toList = some (serialBytes [8]) ∧ (2 ^ 32 - 1 : Nat) < 2 ^ 32 ∧
    ([8] : List Word).length < 2 ^ 32 := by decide

/-- AddAndTestReportToTheirCaller: an encoding whose keys are one symbol too long, and one whose longest key fits, on engines
with and without a filter. -/
theorem witness_addAndTest :
    (65535 < ((fun _ => List.replicate 65536 0 : String → List Sym) "a").length) ∧
    ((fun _ => List.replicate 65535 0 : String → List Sym) "a").length ≤ 65535 ∧
    State.reset.configured = false ∧ used.Inv ∧ used.configured = true := by
  refine ⟨?_, ?_, by decide, by decide, by decide⟩
  · rw [List.length_replicate]
    decide
  · rw [List.length_replicate]

/-- SaveThenLoadRestoresTheFilter: the smallest engine that the filter fits. -/
theorem witness_saveThenLoad :
    let r : State := { State.reset with cfg := { resetConfig with nMax := 2, kMax := 2 } }
    used.Inv ∧ used.configured = true ∧ used.nwords.toNat ≤ r.cfg.nMax ∧ used.nhash.toNat ≤ r.cfg.kMax := by decide

/-- SizingGivesNoZeroOperand. -/
theorem witness_sizing :
    CreateLegal 10 (1 / 2) ∧
    Sizing Int.floor 10 (1 / 2) ⌈-((10 : Int) : ℝ) * Real.log (1 / 2) / Real.log 2 ^ 2⌉
      (max 1 ⌊((⌈-((10 : Int) : ℝ) * Real.log (1 / 2) / Real.log 2 ^ 2⌉ : Int) : ℝ) / ((10 : Int) : ℝ) * Real.log 2⌋)
      ⌈((⌈-((10 : Int) : ℝ) * Real.log (1 / 2) / Real.log 2 ^ 2⌉ : Int) : ℝ) / 32⌉ :=
  ⟨⟨by norm_num, by norm_num, by norm_num⟩, rfl, rfl, rfl⟩

/-- CreateEmptyReportsToItsCaller, invalid arguments: the three that R151 names, and an error rate of 0. -/
theorem witness_createInvalid :
    resetConfig.Legal ∧ ¬ CreateLegal 0 (1 / 100) ∧ ¬ CreateLegal 10 1 ∧ ¬ CreateLegal (-5) (1 / 100) ∧
    ¬ CreateLegal 10 0 :=
  ⟨by decide, by norm_num [CreateLegal], by norm_num [CreateLegal], by norm_num [CreateLegal],
    by norm_num [CreateLegal]⟩

/-- CreateEmptyReportsToItsCaller, valid arguments: one key at an error rate of 1/2 takes 2 bits, one word and, with a
`round` that answers 1, one hash, which the smallest engine holds; with a `round` that answers 2 it does not. -/
theorem witness_create :
    let c : Config := { resetConfig with nMax := 1, kMax := 1 }
    c.Legal ∧ CreateLegal 1 (1 / 2) ∧
    (Sizing (fun _ => 1) 1 (1 / 2) 2 1 1 ∧ (1 : Int) ≤ c.nMax ∧ (1 : Int) ≤ c.kMax) ∧
    (Sizing (fun _ => 2) 1 (1 / 2) 2 2 1 ∧ (c.kMax : Int) < 2) := by
  have hb : ⌈-((1 : Int) : ℝ) * Real.log (1 / 2) / Real.log 2 ^ 2⌉ = 2 := by
    have h1 := Real.log_two_gt_d9
    have h2 := Real.log_two_lt_d9
    have hpos : (0 : ℝ) < Real.log 2 := by linarith
    have he : -((1 : Int) : ℝ) * Real.log (1 / 2) / Real.log 2 ^ 2 = 1 / Real.log 2 := by
      rw [one_div, Real.log_inv]
      field_simp
      norm_num
    rw [he, Int.ceil_eq_iff, lt_div_iff₀ hpos, div_le_iff₀ hpos]
    constructor <;> norm_num <;> linarith
  have hw : ⌈((2 : Int) : ℝ) / 32⌉ = 1 := by
    rw [Int.ceil_eq_iff]
    norm_num
  exact ⟨by decide, by norm_num [CreateLegal], ⟨⟨hb.symm, rfl, hw.symm⟩, by decide, by decide⟩,
    ⟨hb.symm, rfl, hw.symm⟩, by decide⟩

end Sys2Proof.Tests
end

section
/-! PROOF. Family 00_scope (R8): a step is the decoded command's execution, and in every state that meets the invariant
it answers a next state. Each shared operation first gets a lemma that says when it answers a next state. -/

namespace Sys2Proof.Machine

/-! ## The decoded command -/

/-- In a receiving state the step is the execution of the command at the port, with its packet consumed. -/
theorem step_eq_exec_of_decode {s : State} {i : Instr} {rest : List Word} (hs : Receiving s)
    (hd : decode (pendingWords s) = some (.command i, rest)) : step s = exec i (consumePacket s rest) := by
  obtain ⟨hrst, hrsp⟩ := hs
  exact step_command (by rw [nextPhase_receive hrst hrsp, receivePacket, hd])

/-- Settles O9: the ports hand the decoded command on in the state with the packet consumed. -/
theorem stepRunsTheDecodedCommand : Obligations.StepRunsTheDecodedCommand :=
  fun _ _ _ hs hd => step_eq_exec_of_decode hs hd

/-! ## Where an operation answers a next state -/

theorem ite_answers {c : Prop} [Decidable c] {a b : Result} (ha : ∃ t, a = .next t) (hb : ∃ t, b = .next t) :
    ∃ t, (if c then a else b) = .next t := by
  by_cases h : c
  · rwa [if_pos h]
  · rwa [if_neg h]

/-- The CONFIGURED check answers as soon as what it guards does. -/
theorem whenConfigured_answers {opc : Byte} {s : State} {go : Result}
    (h : s.configured = true → ∃ t, go = .next t) : ∃ t, whenConfigured opc s go = .next t := by
  cases hc : s.configured with
  | false => exact ⟨_, whenConfigured_false hc⟩
  | true => rw [whenConfigured_true hc]; exact h hc

/-- ADD, TEST and LOC answer unless the engine is configured without a word (R101). -/
theorem withLocations_answers {opc : Byte} {key : List Sym} {s : State} {go : List Nat → State}
    (hm : s.configured = true → mbits s ≠ 0) : ∃ t, withLocations opc key s go = .next t :=
  whenConfigured_answers fun hc => ⟨_, if_neg (hm hc)⟩

/-- BSET, BTST and RDW answer in every state. -/
theorem indexed_answers {opc : Byte} {s t u : State} {legal : Bool} :
    ∃ v, whenConfigured opc s (if legal then .next t else .next u) = .next v :=
  whenConfigured_answers fun _ => ite_answers ⟨_, rfl⟩ ⟨_, rfl⟩

theorem execInit_answers (n k : Word) (s : State) : ∃ t, execInit n k s = .next t :=
  ite_answers ⟨_, rfl⟩ ⟨_, rfl⟩

theorem execAdd_answers {key : List Sym} {s : State} (hm : s.configured = true → mbits s ≠ 0) :
    ∃ t, execAdd key s = .next t := withLocations_answers hm

theorem execTest_answers {key : List Sym} {s : State} (hm : s.configured = true → mbits s ≠ 0) :
    ∃ t, execTest key s = .next t := withLocations_answers hm

theorem execLoc_answers {key : List Sym} {s : State} (hm : s.configured = true → mbits s ≠ 0) :
    ∃ t, execLoc key s = .next t := withLocations_answers hm

theorem execMerge_answers (ok on : Word) (ow : List Word) (s : State) : ∃ t, execMerge ok on ow s = .next t :=
  whenConfigured_answers fun _ => ite_answers ⟨_, rfl⟩ (ite_answers ⟨_, rfl⟩ ⟨_, rfl⟩)

theorem execRdr_answers (reg : Byte) (s : State) : ∃ t, execRdr reg s = .next t := by
  obtain ⟨v, -, h⟩ | ⟨-, h⟩ := execRdr_cases reg s
  · exact ⟨_, h⟩
  · exact ⟨_, h⟩

/-- Every command answers a next state, unless the engine is configured without a word (R101, log 9). -/
theorem exec_answers {s : State} (hm : s.configured = true → mbits s ≠ 0) (i : Instr) : ∃ t, exec i s = .next t := by
  cases i with
  | init n k => exact execInit_answers n k s
  | add key => exact execAdd_answers hm
  | test key => exact execTest_answers hm
  | loc key => exact execLoc_answers hm
  | hash seed key => exact ⟨_, execHash_eq seed key s⟩
  | merge ok on ow => exact execMerge_answers ok on ow s
  | rdw idx => exact indexed_answers
  | rdr reg => exact execRdr_answers reg s
  | bset idx => exact indexed_answers
  | btst idx => exact indexed_answers

/-! ## The invariant -/

/-- A configured engine that meets the invariant has a bit (R15 (c), R101). -/
theorem State.Inv.mbits_ne_zero {s : State} (hs : s.Inv) (hc : s.configured = true) : mbits s ≠ 0 := by
  obtain ⟨-, ⟨-, hreg⟩, -⟩ := hs
  obtain ⟨hn, -⟩ := hreg hc
  unfold mbits
  omega

/-- Settles O17: the ports answer whatever they finish themselves, and the command they hand on is executed with the
registers unchanged, so the remainder by `MBITS` is defined. -/
theorem stepNeverStops : Obligations.StepNeverStops := by
  intro s hs
  obtain ⟨-, reset⟩ | ⟨-, -, response⟩ | ⟨-, -, ⟨-, held⟩ | ⟨i, rest, -, command⟩ | ⟨opc, rest, -, malformed⟩ |
    ⟨opc, rest, -, illegal⟩⟩ := step_cases s
  · exact ⟨_, reset⟩
  · exact ⟨_, response⟩
  · exact ⟨_, held⟩
  · have hm : (consumePacket s rest).configured = true → mbits (consumePacket s rest) ≠ 0 := hs.mbits_ne_zero
    obtain ⟨t, ht⟩ := exec_answers hm i
    exact ⟨t, command.trans ht⟩
  · exact ⟨_, malformed⟩
  · exact ⟨_, illegal⟩

end Sys2Proof.Machine
end

section
/-! PROOF. Family 10_state (R13 to R21): the reset state, and what commands and steps keep of the registers, of the ports
and of the bit array. Everything a command can answer, and everything a step can answer, is said once; each statement is
then a short case analysis. -/

namespace Sys2Proof.Machine

/-! ## The reset state -/

/-- Settles O11: `State.reset` has the values of R20. -/
theorem resetStateIsAsSpecified : Obligations.ResetStateIsAsSpecified :=
  ⟨rfl, rfl, rfl, rfl, rfl, rfl, rfl, rfl⟩

/-- An engine without a filter has legal registers when both are 0 (R15 (b)). -/
theorem registersLegal_of_unconfigured {s : State} (hc : s.configured = false) (hn : s.nwords = 0) (hk : s.nhash = 0) :
    RegistersLegal s :=
  ⟨fun _ => ⟨hn, hk⟩, fun h => absurd (hc.symm.trans h) Bool.false_ne_true⟩

theorem arrayLegal_of_mem_nil {s : State} (hm : s.mem = []) : ArrayLegal s := by
  constructor
  · rw [hm]; exact Memory.wf_nil
  · simp [hm]

/-- The reset state with any legal configuration meets the invariant, whatever stands at the ports. -/
theorem resetEngine_inv {s : State} (hc : s.cfg.Legal) : (resetEngine s).Inv :=
  ⟨hc, registersLegal_of_unconfigured rfl rfl rfl, arrayLegal_of_mem_nil rfl⟩

theorem resetConfig_legal : resetConfig.Legal := by decide

/-- Settles O15: the reset state is the engine right after reset, for every legal configuration. -/
theorem invariantHoldsAtReset : Obligations.InvariantHoldsAtReset :=
  ⟨resetEngine_inv (s := State.reset) resetConfig_legal,
    fun c hc => resetEngine_inv (s := { State.reset with cfg := c }) hc⟩

/-! ## Everything a command can answer -/

/-- The writes to the bit array: in state `s` the command leaves the array `m`. Each has passed its checks (R33, R101,
R136), so it writes no word beyond `NWORDS`. -/
inductive ArrayWrite (s : State) : Instr → List Host.Cell → Prop where
  | add (key : List Sym) (hm : mbits s ≠ 0) : ArrayWrite s (.add key) (bitSetAll s.mem (keyLocations s key))
  | merge (ok on : Word) (ow : List Word) (hn : on = s.nwords) : ArrayWrite s (.merge ok on ow) (mergeOr s.mem ow)
  | bset (idx : Word) (hi : bitIndexLegal idx s = true) : ArrayWrite s (.bset idx) (bitSet s.mem idx.toNat)

/-- A command that answers a next state adds response words and else changes nothing, or writes the array, or is an INIT
with legal operands. -/
theorem exec_next_cases {i : Instr} {s t : State} (h : exec i s = .next t) :
    (∃ ws, t = emit s ws) ∨
    (∃ m ws, ArrayWrite s i m ∧ t = emit { s with mem := m } ws) ∨
    (∃ n k ws, i = .init n k ∧ initLegal n k s = true ∧ t = emit (createFilter n k s) ws) := by
  cases i with
  | init n k =>
    obtain ⟨legal, created⟩ | ⟨-, refused⟩ := execInit_cases n k s
    · exact .inr (.inr ⟨n, k, _, rfl, legal, next_inj (h.symm.trans created)⟩)
    · exact .inl ⟨_, next_inj (h.symm.trans refused)⟩
  | add key =>
    obtain ⟨-, rfl⟩ | ⟨-, hm, rfl⟩ := execAdd_next h
    · exact .inl ⟨_, rfl⟩
    · exact .inr (.inl ⟨_, _, .add key hm, rfl⟩)
  | test key =>
    obtain ⟨-, rfl⟩ | ⟨-, -, rfl⟩ := execTest_next h
    · exact .inl ⟨_, rfl⟩
    · exact .inl ⟨_, rfl⟩
  | loc key =>
    obtain ⟨-, rfl⟩ | ⟨-, -, rfl⟩ := execLoc_next h
    · exact .inl ⟨_, rfl⟩
    · exact .inl ⟨_, rfl⟩
  | hash seed key => exact .inl ⟨_, next_inj (h.symm.trans (execHash_eq seed key s))⟩
  | merge ok on ow =>
    obtain ⟨-, rfl⟩ | ⟨-, -, rfl⟩ | ⟨-, -, -, rfl⟩ | ⟨-, -, hn, rfl⟩ := execMerge_next h
    · exact .inl ⟨_, rfl⟩
    · exact .inl ⟨_, rfl⟩
    · exact .inl ⟨_, rfl⟩
    · exact .inr (.inl ⟨_, _, .merge ok on ow hn, rfl⟩)
  | rdw idx =>
    obtain ⟨-, rfl⟩ | ⟨-, -, rfl⟩ | ⟨-, -, rfl⟩ := execRdw_next h
    · exact .inl ⟨_, rfl⟩
    · exact .inl ⟨_, rfl⟩
    · exact .inl ⟨_, rfl⟩
  | rdr reg =>
    obtain ⟨v, -, answered⟩ | ⟨-, answered⟩ := execRdr_cases reg s
    · exact .inl ⟨_, next_inj (h.symm.trans answered)⟩
    · exact .inl ⟨_, next_inj (h.symm.trans answered)⟩
  | bset idx =>
    obtain ⟨-, rfl⟩ | ⟨-, hi, rfl⟩ | ⟨-, -, rfl⟩ := execBset_next h
    · exact .inl ⟨_, rfl⟩
    · exact .inr (.inl ⟨_, _, .bset idx hi, rfl⟩)
    · exact .inl ⟨_, rfl⟩
  | btst idx =>
    obtain ⟨-, rfl⟩ | ⟨-, -, rfl⟩ | ⟨-, -, rfl⟩ := execBtst_next h
    · exact .inl ⟨_, rfl⟩
    · exact .inl ⟨_, rfl⟩
    · exact .inl ⟨_, rfl⟩

/-- Settles O20: a response, an array write and a new filter each leave the configuration and the ports alone, and only
INIT makes a new filter. -/
theorem commandsLeaveRegistersAndPorts : Obligations.CommandsLeaveRegistersAndPorts := by
  intro i s t h
  obtain ⟨ws, rfl⟩ | ⟨m, ws, -, rfl⟩ | ⟨n, k, ws, rfl, -, rfl⟩ := exec_next_cases h
  · exact ⟨⟨rfl, rfl, rfl, rfl, rfl, rfl⟩, fun _ => ⟨rfl, rfl, rfl⟩⟩
  · exact ⟨⟨rfl, rfl, rfl, rfl, rfl, rfl⟩, fun _ => ⟨rfl, rfl, rfl⟩⟩
  · exact ⟨⟨rfl, rfl, rfl, rfl, rfl, rfl⟩, fun hi => nomatch hi⟩

/-! ## Everything a step can answer -/

/-- The response port touches the offered words and the response stream only. -/
theorem moveResponse_frame (s : State) : ∃ out moved, moveResponse s = { s with rsp := out, rspStream := moved } := by
  unfold moveResponse
  split
  · exact ⟨_, _, rfl⟩
  · exact ⟨_, _, rfl⟩

/-- A step that answers a next state resets the engine, or leaves all but scratch and the word streams as they are, or
executes the command at the port. -/
theorem step_next_cases {s t : State} (h : step s = .next t) :
    (s.rst = true ∧ t = resetEngine s) ∨
    (∃ scratch cmdIn out moved, t = { s with scratch := scratch, cmdIn := cmdIn, rsp := out, rspStream := moved }) ∨
    (∃ i rest, Receiving s ∧ decode (pendingWords s) = some (.command i, rest) ∧
      exec i (consumePacket s rest) = .next t) := by
  obtain ⟨hrst, reset⟩ | ⟨-, -, response⟩ | ⟨hrst, hrsp, ⟨-, held⟩ | ⟨i, rest, hd, command⟩ |
    ⟨opc, rest, -, malformed⟩ | ⟨opc, rest, -, illegal⟩⟩ := step_cases s
  · exact .inl ⟨hrst, next_inj (h.symm.trans reset)⟩
  · obtain ⟨out, moved, hmove⟩ := moveResponse_frame s
    exact .inr (.inl ⟨_, _, out, moved, (next_inj (h.symm.trans response)).trans hmove⟩)
  · exact .inr (.inl ⟨_, _, _, _, next_inj (h.symm.trans held)⟩)
  · exact .inr (.inr ⟨i, rest, ⟨hrst, hrsp⟩, hd, command.symm.trans h⟩)
  · exact .inr (.inl ⟨_, _, _, _, next_inj (h.symm.trans malformed)⟩)
  · exact .inr (.inl ⟨_, _, _, _, next_inj (h.symm.trans illegal)⟩)

/-- Settles O18: out of reset only an executed command can reach the registers, and of the commands only a legal INIT. -/
theorem onlyInitChangesTheRegisters : Obligations.OnlyInitChangesTheRegisters := by
  intro s t hrst h
  obtain ⟨hreset, -⟩ | ⟨_, _, _, _, rfl⟩ | ⟨i, rest, hr, hd, hexec⟩ := step_next_cases h
  · exact absurd (hrst.symm.trans hreset) Bool.false_ne_true
  · exact ⟨id, .inl ⟨rfl, rfl, rfl⟩⟩
  · obtain ⟨ws, rfl⟩ | ⟨m, ws, -, rfl⟩ | ⟨n, k, ws, rfl, legal, rfl⟩ := exec_next_cases hexec
    · exact ⟨id, .inl ⟨rfl, rfl, rfl⟩⟩
    · exact ⟨id, .inl ⟨rfl, rfl, rfl⟩⟩
    · obtain ⟨hn, hnMax, hk, hkMax⟩ := (initLegal_iff n k (consumePacket s rest)).mp legal
      exact ⟨fun _ => rfl, .inr ⟨n, k, rest, hr, hd, hn, hnMax, hk, hkMax, rfl, rfl, rfl⟩⟩

/-! ## Decoded commands are well-formed (R65) -/

theorem packetOf_command {op : Op} {h : Word} {payload : List Word} {i : Instr}
    (hp : Packet.command i = packetOf op h payload) : i = termOf op h payload := by
  unfold packetOf at hp
  split at hp
  · injection hp
  · nomatch hp

theorem headerArg_le_keyLenMax (h : Word) : (headerArg h).toNat ≤ keyLenMax := Nat.le_of_lt_succ (headerArg h).isLt

/-- The term read from a payload of the length that R57 computes meets the length conditions of R65. -/
theorem termOf_wellFormed {op : Op} {h : Word} {ws : List Word} {n : Nat} (hn : payloadLength op h ws = some n)
    (hl : n ≤ ws.length) : (termOf op h (ws.take n)).WellFormed = true := by
  have hkey : (headerArg h).toNat ≤ keyLenMax := headerArg_le_keyLenMax h
  cases op with
  | add | test | loc =>
    obtain rfl : (headerArg h).toNat = n := Option.some.inj hn
    simp [termOf, Instr.WellFormed, hl, hkey]
  | hash =>
    obtain rfl : 1 + (headerArg h).toNat = n := Option.some.inj hn
    simp [termOf, Instr.WellFormed, hl, hkey]
  | merge =>
    obtain _ | ⟨ok, _ | ⟨on, ow⟩⟩ := ws
    · nomatch hn
    · nomatch hn
    · obtain rfl : 2 + on.toNat = n := Option.some.inj hn
      simp only [List.length_cons] at hl
      have : on.toNat ≤ ow.length := by omega
      simp [termOf, Instr.WellFormed, Nat.add_comm 2, this]
  | init | rdw | rdr | bset | btst => rfl

/-- Only well-formed commands come out of the decoder. -/
theorem wellFormed_of_decode {ws rest : List Word} {i : Instr} (hd : decode ws = some (.command i, rest)) :
    i.WellFormed = true := by
  cases ws with
  | nil => nomatch hd
  | cons h ws =>
    obtain ⟨-, hp, -⟩ | ⟨op, n, -, hn, hl, hp, -⟩ := decode_cons_some hd
    · nomatch hp
    · rw [packetOf_command hp]
      exact termOf_wellFormed hn hl

/-! ## What an array write keeps -/

/-- Every location of a key is a bit of the array (R100). -/
theorem keyLocations_lt {s : State} {key : List Sym} (hm : mbits s ≠ 0) {b : Nat} (hb : b ∈ keyLocations s key) :
    b < mbits s := by
  have hpos : 0 < mbits s := Nat.pos_of_ne_zero hm
  obtain rfl | ⟨z, rfl⟩ := mem_locationLoop hb
  · exact floorMod_lt _ hpos
  · exact floorMod_lt _ hpos

/-- The word of a bit of the array is a word of the array (R31, R33). -/
theorem bitWord_lt {s : State} {b : Nat} (hb : b < mbits s) : bitWord b < s.nwords.toNat := by
  unfold mbits at hb
  unfold bitWord
  omega

theorem ArrayWrite.wf {s : State} {i : Instr} {m : List Host.Cell} (h : ArrayWrite s i m) (hs : Memory.wf s.mem) :
    Memory.wf m := by
  cases h with
  | add key => exact wf_bitSetAll hs _
  | merge ok on ow => exact wf_mergeOr hs _
  | bset idx => exact wf_bitSet hs _

/-- A write of a well-formed command lists no byte beyond word `NWORDS` that was not listed before. -/
theorem ArrayWrite.inside {s : State} {i : Instr} {m : List Host.Cell} (h : ArrayWrite s i m)
    (hi : i.WellFormed = true) {c : Host.Cell} (hc : c ∈ m) : c.1 / 4 < s.nwords.toNat ∨ c ∈ s.mem := by
  cases h with
  | add key hm =>
    obtain ⟨b, hb, hword⟩ | hold := mem_bitSetAll hc
    · exact .inl (hword ▸ bitWord_lt (keyLocations_lt hm hb))
    · exact .inr hold
  | merge ok on ow hn =>
    have hlen : ow.length = s.nwords.toNat := hn ▸ eq_of_beq hi
    exact hlen ▸ mem_mergeOr hc
  | bset idx hidx =>
    obtain hword | hold := mem_bitSet hc
    · exact .inl (hword ▸ bitWord_lt (of_decide_eq_true hidx))
    · exact .inr hold

/-- A write of a well-formed command keeps the array canonical and inside `NWORDS` words. -/
theorem ArrayWrite.arrayLegal {s : State} {i : Instr} {m : List Host.Cell} (h : ArrayWrite s i m)
    (hi : i.WellFormed = true) (hs : ArrayLegal s) : ArrayLegal { s with mem := m } := by
  obtain ⟨hwf, hinside⟩ := hs
  refine ⟨h.wf hwf, fun c hc => ?_⟩
  obtain hnew | hold := h.inside hi hc
  · show c.1 < 4 * s.nwords.toNat
    omega
  · exact hinside c hold

/-- Every word of `m` is a subset of the same word of `n`: no bit falls from `m` to `n` (R112). -/
def BitsKept (m n : List Host.Cell) : Prop := ∀ w, readWord m w &&& readWord n w = readWord m w

theorem BitsKept.refl (m : List Host.Cell) : BitsKept m m := fun _ => BitVec.and_self

theorem BitsKept.trans {m n p : List Host.Cell} (h₁ : BitsKept m n) (h₂ : BitsKept n p) : BitsKept m p := fun w => by
  rw [← h₁ w, BitVec.and_assoc, h₂ w]

theorem bitsKept_orWord {m : List Host.Cell} (hm : Memory.wf m) (i : Nat) (v : Word) : BitsKept m (orWord m i v) := by
  intro w
  rw [readWord_orWord hm]
  split
  · ext j
    simp +contextual
  · exact BitVec.and_self

theorem bitsKept_bitSetAll {m : List Host.Cell} (hm : Memory.wf m) (bs : List Nat) : BitsKept m (bitSetAll m bs) := by
  induction bs generalizing m with
  | nil => exact .refl m
  | cons b bs ih => exact (bitsKept_orWord hm _ _).trans (ih (wf_bitSet hm b))

theorem bitsKept_mergeOrFrom {m : List Host.Cell} (hm : Memory.wf m) (i : Nat) (ws : List Word) :
    BitsKept m (mergeOrFrom m i ws) := by
  induction ws generalizing m i with
  | nil => exact .refl m
  | cons w ws ih => exact (bitsKept_orWord hm i w).trans (ih (wf_orWord hm i w) (i + 1))

theorem ArrayWrite.bitsKept {s : State} {i : Instr} {m : List Host.Cell} (h : ArrayWrite s i m)
    (hs : Memory.wf s.mem) : BitsKept s.mem m := by
  cases h with
  | add key => exact bitsKept_bitSetAll hs _
  | merge ok on ow => exact bitsKept_mergeOrFrom hs 0 ow
  | bset idx => exact bitsKept_orWord hs _ _

/-! ## The invariant -/

/-- A successful INIT meets the invariant whatever filter there was (R130, R131). -/
theorem createFilter_inv {n k : Word} {s : State} (hc : s.cfg.Legal) (legal : initLegal n k s = true) :
    (createFilter n k s).Inv := by
  have hregs := (initLegal_iff n k s).mp legal
  exact ⟨hc, ⟨fun h => (nomatch h), fun _ => hregs⟩, arrayLegal_of_mem_nil rfl⟩

/-- Every well-formed command keeps the invariant. -/
theorem exec_keeps_inv {i : Instr} {s t : State} (hs : s.Inv) (hi : i.WellFormed = true) (h : exec i s = .next t) :
    t.Inv := by
  obtain ⟨hcfg, hregs, harray⟩ := hs
  obtain ⟨ws, rfl⟩ | ⟨m, ws, hw, rfl⟩ | ⟨n, k, ws, -, legal, rfl⟩ := exec_next_cases h
  · exact ⟨hcfg, hregs, harray⟩
  · exact ⟨hcfg, hregs, hw.arrayLegal hi harray⟩
  · exact createFilter_inv hcfg legal

/-- Settles O16: reset gives an empty engine, the ports leave registers and array alone, and the decoder hands on
well-formed commands only. -/
theorem stepKeepsInvariant : Obligations.StepKeepsInvariant := by
  intro s t hs h
  obtain ⟨-, rfl⟩ | ⟨_, _, _, _, rfl⟩ | ⟨i, rest, -, hd, hexec⟩ := step_next_cases h
  · exact resetEngine_inv hs.1
  · exact hs
  · have hconsumed : (consumePacket s rest).Inv := hs
    exact exec_keeps_inv hconsumed (wellFormed_of_decode hd) hexec

/-! ## Bits that are set stay set -/

/-- A command other than INIT clears no bit. -/
theorem exec_bitsKept {i : Instr} {s t : State} (hs : Memory.wf s.mem) (hi : isInit i = false)
    (h : exec i s = .next t) : BitsKept s.mem t.mem := by
  obtain ⟨ws, rfl⟩ | ⟨m, ws, hw, rfl⟩ | ⟨n, k, ws, rfl, -, rfl⟩ := exec_next_cases h
  · exact .refl s.mem
  · exact hw.bitsKept hs
  · nomatch hi

/-- Commands that reach a next state have a first command that does. -/
theorem execAll_cons_inv {i : Instr} {is : List Instr} {s t : State} (h : execAll (i :: is) s = .next t) :
    ∃ u, exec i s = .next u ∧ execAll is u = .next t := by
  rw [execAll] at h
  split at h
  · rename_i u hu
    exact ⟨u, hu, h⟩
  · nomatch h
  · nomatch h

/-- A list of commands other than INIT clears no bit: each command keeps the bits, and the invariant for the rest. -/
theorem execAll_bitsKept {is : List Instr} {s t : State} (hs : s.Inv)
    (his : ∀ i ∈ is, isInit i = false ∧ i.WellFormed = true) (h : execAll is s = .next t) : BitsKept s.mem t.mem := by
  induction is generalizing s with
  | nil =>
    obtain rfl : s = t := next_inj h
    exact .refl s.mem
  | cons i is ih =>
    obtain ⟨u, hexec, hrest⟩ := execAll_cons_inv h
    obtain ⟨hinit, hwf⟩ := his i List.mem_cons_self
    have ⟨_, _, hmem, _⟩ := hs
    have hfirst : BitsKept s.mem u.mem := exec_bitsKept hmem hinit hexec
    exact hfirst.trans (ih (exec_keeps_inv hs hwf hexec) (fun j hj => his j (List.mem_cons_of_mem i hj)) hrest)

/-- Settles O19, by induction on the list of commands. -/
theorem setBitsStaySet : Obligations.SetBitsStaySet :=
  fun _ _ _ hs his h => execAll_bitsKept hs his h

end Sys2Proof.Machine
end

section
/-! PROOF. Family 20_memory (R30 to R42): what a command answers does not depend on what stands at the ports, so a stream
of packets is its commands one after the other; readers change nothing, writers are idempotent, and the array in bytes is
little-endian. -/

namespace Sys2Proof

/-! ## The decoder undoes the encoder (R65) -/

theorem Laws.PacketForm.all (i : Instr) : Laws.PacketForm.Statement i := by
  cases i with
  | init n k => exact Laws.PacketForm.init n k
  | add key => exact Laws.PacketForm.add key
  | test key => exact Laws.PacketForm.test key
  | loc key => exact Laws.PacketForm.loc key
  | hash seed key => exact Laws.PacketForm.hash seed key
  | merge ok on ow => exact Laws.PacketForm.merge ok on ow
  | rdw idx => exact Laws.PacketForm.rdw idx
  | rdr reg => exact Laws.PacketForm.rdr reg
  | bset idx => exact Laws.PacketForm.bset idx
  | btst idx => exact Laws.PacketForm.btst idx

/-- The register field of an RDR header is the register number (R54). -/
theorem headerReg_headerWord (op : Op) (reg : Byte) : headerReg (headerWord op (reg.setWidth 16)) = reg := by
  apply BitVec.eq_of_toNat_eq
  have hreg := reg.isLt
  rw [headerReg_toNat, headerWord_toNat, BitVec.toNat_setWidth]
  omega

/-- The fields of an encoded packet are the operands of its term (R54). -/
theorem termOf_payloadOf (i : Instr) : termOf (opOf i) (headerWord (opOf i) (argOf i)) (payloadOf i) = i := by
  cases i with
  | add key | test key | loc key => exact congrArg _ (map_symbolOf_symbolWord key)
  | hash seed key => exact congrArg _ (map_symbolOf_symbolWord key)
  | rdr reg => exact congrArg _ (headerReg_headerWord .rdr reg)
  | init | merge | rdw | bset | btst => rfl

/-- The packet of a well-formed command decodes to that command, whatever words follow. -/
theorem decode_encode {i : Instr} (hi : i.WellFormed = true) (rest : List Word) :
    decode (encode i ++ rest) = some (.command i, rest) := by
  obtain ⟨hopc, hheader, hsymbols, hlength⟩ := Laws.PacketForm.all i hi
  have hop : opOfByte (headerOpc (headerWord (opOf i) (argOf i))) = some (opOf i) := by rw [hopc, opOfByte_opCode]
  have hpacket : packetOf (opOf i) (headerWord (opOf i) (argOf i)) (payloadOf i) = .command i := by
    rw [packetOf, hheader, hsymbols, termOf_payloadOf]
    rfl
  rw [encode, List.cons_append, decode_whole hop (hlength rest) (by simp), List.take_left, List.drop_left, hpacket]

end Sys2Proof

namespace Sys2Proof.Machine

/-! ## Commands do not look at the ports -/

/-- The words at the ports of an engine: received, offered to it, offered by it, and already moved to the host. -/
structure Ports where
  scratch : List Word
  cmdIn : List Word
  out : List Word
  moved : List Word

/-- The engine with other words at its ports. -/
def withPorts (p : Ports) (s : State) : State :=
  { s with scratch := p.scratch, cmdIn := p.cmdIn, rsp := p.out, rspStream := p.moved }

/-- If the answer `r` in state `s` is a next state, it adds response words to those offered, and the answer `r'` with the
ports `p` adds the same words there and is the same state otherwise. -/
def SameAnswer (s : State) (p : Ports) (r r' : Result) : Prop :=
  ∀ t, r = .next t → ∃ ws, t.rsp = s.rsp ++ ws ∧ r' = .next (withPorts { p with out := p.out ++ ws } t)

section
variable {s : State} {p : Ports}

theorem sameAnswer_emit {u : State} (hu : u.rsp = s.rsp) (ws : List Word) :
    SameAnswer s p (.next (emit u ws)) (.next (emit (withPorts p u) ws)) := by
  intro t h
  obtain rfl := next_inj h
  exact ⟨ws, congrArg (· ++ ws) hu, rfl⟩

theorem sameAnswer_fault (r r' : Fault) : SameAnswer s p (.fault r) (.fault r') := fun _ h => nomatch h

theorem sameAnswer_ite {c : Prop} [Decidable c] {a b a' b' : Result} (ha : SameAnswer s p a a')
    (hb : SameAnswer s p b b') : SameAnswer s p (if c then a else b) (if c then a' else b') := by
  by_cases h : c
  · rwa [if_pos h, if_pos h]
  · rwa [if_neg h, if_neg h]

/-- The CONFIGURED check is the same at all ports. -/
theorem sameAnswer_whenConfigured {opc : Byte} {go go' : Result} (h : SameAnswer s p go go') :
    SameAnswer s p (whenConfigured opc s go) (whenConfigured opc (withPorts p s) go') :=
  sameAnswer_ite h (sameAnswer_emit rfl _)

/-- BSET, BTST and RDW make the same checks at all ports. -/
theorem sameAnswer_indexed {opc : Byte} {legal : Bool} {go go' : Result} (h : SameAnswer s p go go') :
    SameAnswer s p (whenConfigured opc s (if legal then go else .next (raiseError opc .range s)))
      (whenConfigured opc (withPorts p s) (if legal then go' else .next (raiseError opc .range (withPorts p s)))) :=
  sameAnswer_whenConfigured (sameAnswer_ite h (sameAnswer_emit rfl _))

theorem sameAnswer_execRdr (reg : Byte) : SameAnswer s p (execRdr reg s) (execRdr reg (withPorts p s)) := by
  have hregister : readRegister reg (withPorts p s) = readRegister reg s := rfl
  rw [execRdr, execRdr, hregister]
  cases readRegister reg s with
  | some v => exact sameAnswer_emit rfl _
  | none => exact sameAnswer_emit rfl _

/-- No command looks at the words that stand at the ports. -/
theorem sameAnswer_exec (i : Instr) : SameAnswer s p (exec i s) (exec i (withPorts p s)) := by
  cases i with
  | init n k => exact sameAnswer_ite (sameAnswer_emit rfl _) (sameAnswer_emit rfl _)
  | add key | test key | loc key =>
    exact sameAnswer_whenConfigured (sameAnswer_ite (sameAnswer_fault _ _) (sameAnswer_emit rfl _))
  | hash seed key => exact sameAnswer_emit rfl _
  | merge ok on ow =>
    exact sameAnswer_whenConfigured (sameAnswer_ite (sameAnswer_emit rfl _)
      (sameAnswer_ite (sameAnswer_emit rfl _) (sameAnswer_emit rfl _)))
  | rdw idx => exact sameAnswer_indexed (sameAnswer_emit rfl _)
  | rdr reg => exact sameAnswer_execRdr reg
  | bset idx => exact sameAnswer_indexed (sameAnswer_emit rfl _)
  | btst idx => exact sameAnswer_indexed (sameAnswer_emit rfl _)

end

/-! ## A stream of packets -/

/-- A response is moved word by word to the host that accepts every word (R206, R62). -/
theorem run_moves_response {s : State} (hrst : s.rst = false) (hready : s.rspReady = true)
    (scratch cmdIn out moved : List Word) :
    Host.Core.run core out.length (withPorts ⟨scratch, cmdIn, out, moved⟩ s) =
      .next (withPorts ⟨scratch, cmdIn, [], moved ++ out⟩ s) := by
  induction out generalizing moved with
  | nil => rw [List.append_nil]; rfl
  | cons w ws ih =>
    have hmove : step (withPorts ⟨scratch, cmdIn, w :: ws, moved⟩ s) =
        .next (withPorts ⟨scratch, cmdIn, ws, moved ++ [w]⟩ s) := by
      have hpin : (withPorts ⟨scratch, cmdIn, w :: ws, moved⟩ s).rst = false := hrst
      rw [step_settled (nextPhase_response hpin rfl), moveResponse_ready hpin rfl hready]
      rfl
    rw [List.length_cons, run_succ hmove, ih, List.append_assoc]
    rfl

/-- One packet of a stream: its command is executed and its response moved, and the engine waits for the next header. -/
theorem run_packet {i : Instr} {s t : State} (hrst : s.rst = false) (hready : s.rspReady = true)
    (hi : i.WellFormed = true) (h : exec i s = .next t) (later moved : List Word) :
    ∃ ws, t.rsp = s.rsp ++ ws ∧
      Host.Core.run core (ws.length + 1) (withPorts ⟨[], encode i ++ later, [], moved⟩ s) =
        .next (withPorts ⟨[], later, [], moved ++ ws⟩ t) := by
  obtain ⟨ws, hrsp, hexec⟩ := sameAnswer_exec (p := ⟨[], later, [], moved⟩) i t h
  obtain ⟨⟨-, -, hrst', -, hready', -⟩, -⟩ := commandsLeaveRegistersAndPorts i s t h
  have hstep : step (withPorts ⟨[], encode i ++ later, [], moved⟩ s) = .next (withPorts ⟨[], later, ws, moved⟩ t) :=
    have hreceiving : Receiving (withPorts ⟨[], encode i ++ later, [], moved⟩ s) := ⟨hrst, rfl⟩
    (step_eq_exec_of_decode hreceiving (decode_encode hi later)).trans hexec
  refine ⟨ws, hrsp, ?_⟩
  rw [run_succ hstep]
  exact run_moves_response (hrst'.trans hrst) (hready'.trans hready) [] later ws moved

/-- The simulation: the engine at the ports runs a stream of packets as `execAll` runs its commands. -/
theorem run_stream {is : List Instr} {s t : State} (hrst : s.rst = false) (hready : s.rspReady = true)
    (his : ∀ i ∈ is, i.WellFormed = true) (h : execAll is s = .next t) (rest moved : List Word) :
    ∃ ws k, t.rsp = s.rsp ++ ws ∧
      Host.Core.run core k (withPorts ⟨[], is.flatMap encode ++ rest, [], moved⟩ s) =
        .next (withPorts ⟨[], rest, [], moved ++ ws⟩ t) := by
  induction is generalizing s moved with
  | nil =>
    obtain rfl : s = t := next_inj h
    exact ⟨[], 0, (List.append_nil _).symm, by rw [List.append_nil]; rfl⟩
  | cons i is ih =>
    obtain ⟨u, hexec, hrest⟩ := execAll_cons_inv h
    obtain ⟨hi, his'⟩ := List.forall_mem_cons.mp his
    obtain ⟨⟨-, -, hrst', -, hready', -⟩, -⟩ := commandsLeaveRegistersAndPorts i s u hexec
    obtain ⟨ws, hws, hfirst⟩ := run_packet hrst hready hi hexec (is.flatMap encode ++ rest) moved
    obtain ⟨ws', k, hws', hlater⟩ := ih (hrst'.trans hrst) (hready'.trans hready) his' hrest (moved ++ ws)
    refine ⟨ws ++ ws', ws.length + 1 + k, by rw [hws', hws, List.append_assoc], ?_⟩
    rw [List.flatMap_cons, List.append_assoc, run_add hfirst, hlater, List.append_assoc]

/-- Commands leave the command port alone. -/
theorem execAll_commandPort {is : List Instr} {s t : State} (h : execAll is s = .next t) :
    t.scratch = s.scratch ∧ t.cmdIn = s.cmdIn := by
  induction is generalizing s with
  | nil =>
    obtain rfl : s = t := next_inj h
    exact ⟨rfl, rfl⟩
  | cons i is ih =>
    obtain ⟨u, hexec, hrest⟩ := execAll_cons_inv h
    obtain ⟨⟨-, hscratch, -, hcmdIn, -⟩, -⟩ := commandsLeaveRegistersAndPorts i s u hexec
    obtain ⟨hscratch', hcmdIn'⟩ := ih hrest
    exact ⟨hscratch'.trans hscratch, hcmdIn'.trans hcmdIn⟩

/-- Settles O14, by the simulation from the state that waits for the first header. -/
theorem commandStreamRunsInOrder : Obligations.CommandStreamRunsInOrder := by
  intro is s t rest ⟨hrst, hrsp⟩ hready hscratch hcmdIn his h
  obtain ⟨ws, k, hws, hrun⟩ := run_stream (s := { s with cmdIn := rest }) hrst hready his h rest s.rspStream
  obtain ⟨hscratch', hcmdIn'⟩ := execAll_commandPort h
  have hstart : withPorts ⟨[], is.flatMap encode ++ rest, [], s.rspStream⟩ { s with cmdIn := rest } = s := calc
    _ = withPorts ⟨s.scratch, s.cmdIn, s.rsp, s.rspStream⟩ { s with cmdIn := rest } := by rw [hscratch, hcmdIn, hrsp]
    _ = s := rfl
  have hend : withPorts ⟨[], rest, [], s.rspStream ++ ws⟩ t =
      { t with rsp := [], rspStream := s.rspStream ++ t.rsp } := calc
    _ = withPorts ⟨t.scratch, t.cmdIn, [], s.rspStream ++ t.rsp⟩ t := by
      rw [hscratch', hcmdIn', hws, hscratch, hrsp, List.nil_append]
    _ = _ := rfl
  rw [hstart, hend] at hrun
  exact ⟨k, hrun⟩

/-! ## Commands repeated (R38) -/

/-- A command that only adds a response adds the same response when repeated. -/
theorem exec_emit_again {i : Instr} {s : State} {ws : List Word} (h : exec i s = .next (emit s ws)) :
    exec i (emit s ws) = .next (emit (emit s ws) ws) := by
  obtain ⟨ws', hrsp, hagain⟩ :=
    sameAnswer_exec (p := ⟨s.scratch, s.cmdIn, s.rsp ++ ws, s.rspStream⟩) i _ h
  obtain rfl : ws = ws' := List.append_cancel_left hrsp
  exact hagain

/-- Settles O21: a reader writes no array and is no INIT, so all it does is add a response. -/
theorem readersChangeNothing : Obligations.ReadersChangeNothing := by
  intro i s t hreader h
  obtain ⟨ws, rfl⟩ | ⟨m, ws, hwrite, -⟩ | ⟨n, k, ws, rfl, -⟩ := exec_next_cases h
  · exact ⟨ws, rfl, exec_emit_again h⟩
  · cases hwrite with
    | add | merge | bset => simp at hreader
  · simp at hreader

theorem bitSetAll_bitSetAll {m : List Host.Cell} (hm : Memory.wf m) (bs : List Nat) :
    bitSetAll (bitSetAll m bs) bs = bitSetAll m bs := by
  have hset := wf_bitSetAll hm bs
  refine array_ext (wf_bitSetAll hset bs) hset (readWord_eq_of_bits fun b => ?_)
  rw [bitTest_bitSetAll hset, bitTest_bitSetAll hm, Bool.or_assoc, Bool.or_self]

theorem bitSet_bitSet {m : List Host.Cell} (hm : Memory.wf m) (b : Nat) : bitSet (bitSet m b) b = bitSet m b :=
  bitSetAll_bitSetAll hm [b]

theorem mergeOr_mergeOr {m : List Host.Cell} (hm : Memory.wf m) (ws : List Word) :
    mergeOr (mergeOr m ws) ws = mergeOr m ws := by
  have hmerged := wf_mergeOr hm ws
  refine array_ext (wf_mergeOr hmerged ws) hmerged fun j => ?_
  rw [readWord_mergeOr hmerged, readWord_mergeOr hm]
  by_cases hj : j < ws.length
  · simp only [if_pos hj, BitVec.or_assoc, BitVec.or_self]
  · simp only [if_neg hj]

theorem execMerge_of_fits {ok on : Word} {ow : List Word} {s : State} (hc : s.configured = true) (hk : ok = s.nhash)
    (hn : on = s.nwords) :
    execMerge ok on ow s = .next (respond (opCode .merge) false [] { s with mem := mergeOr s.mem ow }) := by
  rw [execMerge, whenConfigured_true hc, if_neg (not_not.mpr hk), if_neg (not_not.mpr hn)]

theorem execBset_of_legal {idx : Word} {s : State} (hc : s.configured = true) (hi : bitIndexLegal idx s = true) :
    execBset idx s = .next (respond (opCode .bset) false [] { s with mem := bitSet s.mem idx.toNat }) := by
  rw [execBset, whenConfigured_true hc, if_pos hi]

/-- The answer `t` is one header, beside an array that the same operation leaves as it is and answers the same. -/
def WritesOnce (f : State → Result) (s t : State) : Prop :=
  ∃ m hdr, t = emit { s with mem := m } [hdr] ∧ f { s with mem := m } = .next t

theorem writesOnce_of_error {f : State → Result} {s : State} {opc : Byte} {e : ErrorCode}
    (h : f s = .next (raiseError opc e s)) : WritesOnce f s (raiseError opc e s) :=
  ⟨s.mem, _, rfl, h⟩

theorem writesOnce_of_write {f : State → Result} {s : State} {opc : Byte} {m m' : List Host.Cell} (hm : m' = m)
    (h : f { s with mem := m } = .next (respond opc false [] { s with mem := m' })) :
    WritesOnce f s (respond opc false [] { s with mem := m }) :=
  ⟨m, _, rfl, hm ▸ h⟩

theorem execAdd_writesOnce {key : List Sym} {s t : State} (hs : Memory.wf s.mem) (h : execAdd key s = .next t) :
    WritesOnce (execAdd key) s t := by
  obtain ⟨-, rfl⟩ | ⟨hc, hm, rfl⟩ := execAdd_next h
  · exact writesOnce_of_error h
  · exact writesOnce_of_write (bitSetAll_bitSetAll hs _) (execAdd_of_configured hc hm)

theorem execMerge_writesOnce {ok on : Word} {ow : List Word} {s t : State} (hs : Memory.wf s.mem)
    (h : execMerge ok on ow s = .next t) : WritesOnce (execMerge ok on ow) s t := by
  obtain ⟨-, rfl⟩ | ⟨-, -, rfl⟩ | ⟨-, -, -, rfl⟩ | ⟨hc, hk, hn, rfl⟩ := execMerge_next h
  · exact writesOnce_of_error h
  · exact writesOnce_of_error h
  · exact writesOnce_of_error h
  · exact writesOnce_of_write (mergeOr_mergeOr hs ow) (execMerge_of_fits hc hk hn)

theorem execBset_writesOnce {idx : Word} {s t : State} (hs : Memory.wf s.mem) (h : execBset idx s = .next t) :
    WritesOnce (execBset idx) s t := by
  obtain ⟨-, rfl⟩ | ⟨hc, hi, rfl⟩ | ⟨-, -, rfl⟩ := execBset_next h
  · exact writesOnce_of_error h
  · exact writesOnce_of_write (bitSet_bitSet hs _) (execBset_of_legal hc hi)
  · exact writesOnce_of_error h

/-- Settles O22: once written, the array does not change when the command is repeated, and so the response is the same
again. -/
theorem writersAreIdempotent : Obligations.WritersAreIdempotent := by
  rintro i s t ⟨-, -, hmem, -⟩ - hwriter h
  have honce : WritesOnce (exec i) s t := by
    obtain ⟨key, rfl⟩ | ⟨idx, rfl⟩ | ⟨ok, on, ow, rfl⟩ := hwriter
    · exact execAdd_writesOnce hmem h
    · exact execBset_writesOnce hmem h
    · exact execMerge_writesOnce hmem h
  obtain ⟨m, hdr, rfl, hagain⟩ := honce
  exact ⟨hdr, rfl, exec_emit_again hagain⟩

/-! ## The byte view (R31, R36) -/

theorem wordByte_getLsbD (w : Word) (j : Nat) {i : Nat} (hi : i < 8) :
    (wordByte w j).getLsbD i = w.getLsbD (8 * j + i) := by
  rw [wordByte, BitVec.getLsbD_ofNat, decide_eq_true hi, Bool.true_and, Nat.testBit_div_two_pow, Nat.add_comm]
  rfl

/-- Bit `b` of the array is bit `b mod 8` of byte `b div 8`. -/
theorem bitTest_eq_read (m : List Host.Cell) (b : Nat) :
    bitTest m b = (Memory.read m (b / 8)).getLsbD (b % 8) := by
  have hword : b / 8 / 4 = b / 32 := Nat.div_div_eq_div_mul b 8 4
  have hbit : 8 * (b / 8 % 4) + b % 8 = b % 32 := by omega
  rw [bitTest_eq, read_eq_wordByte, wordByte_getLsbD _ _ (Nat.mod_lt b (by decide)), hword, hbit]

/-- The serialized bytes of one word are its four bytes of the byte view. -/
theorem serialBytes_readWord (m : List Host.Cell) (i : Nat) :
    serialBytes [readWord m i] = (List.range 4).map fun j => Memory.read m (4 * i + j) := by
  rw [serialBytes, List.flatMap_singleton]
  refine List.map_congr_left fun j hj => ?_
  have hj4 : j < 4 := List.mem_range.mp hj
  have hword : (4 * i + j) / 4 = i := by omega
  have hbyte : (4 * i + j) % 4 = j := by omega
  rw [read_eq_wordByte, hword, hbyte]

theorem serialBytes_append (ws vs : List Word) : serialBytes (ws ++ vs) = serialBytes ws ++ serialBytes vs :=
  List.flatMap_append

/-- The serialized words below `n` are the first `4 * n` bytes of the byte view. -/
theorem serialBytes_words (m : List Host.Cell) (n : Nat) :
    serialBytes ((List.range n).map (readWord m)) = (List.range (4 * n)).map (Memory.read m) := by
  induction n with
  | zero => rfl
  | succ n ih =>
    rw [List.range_succ, List.map_append, List.map_singleton, serialBytes_append, ih, serialBytes_readWord,
      Nat.mul_succ, List.range_add, List.map_append, List.map_map]
    rfl

/-- Settles O48: each bit by its byte, and the array word by word. -/
theorem byteViewIsLittleEndian : Obligations.ByteViewIsLittleEndian :=
  ⟨bitTest_eq_read, fun s => serialBytes_words s.mem s.nwords.toNat⟩

end Sys2Proof.Machine
end

section
/-! PROOF. Family 30_encoding (R50 to R68): encoder and decoder are inverse to each other, one packet at a time and over a
stream; a whole packet is read as R57 and R61 say in numbers; what the ports answer to illegal and malformed packets; the
one response of every command; and the reading of a whole filter. -/

namespace Sys2Proof.Machine

/-! ## From a command to its packet and back (R65, R66) -/

/-- Settles O1: an encoded packet has the length, the clean bits and the fields that the decoder looks for. -/
theorem encodedCommandDecodesToItself : Obligations.EncodedCommandDecodesToItself :=
  fun _ rest hi => decode_encode hi rest

/-- Reading with enough fuel takes the packets of well-formed commands one by one and stops at the incomplete rest. -/
theorem decodeStreamWith_encode {is : List Instr} {left : List Word} (his : ∀ i ∈ is, i.WellFormed = true)
    (hleft : decode left = none) {fuel : Nat} (hfuel : is.length ≤ fuel) :
    decodeStreamWith fuel (is.flatMap encode ++ left) = (is.map Packet.command, left) := by
  induction is generalizing fuel with
  | nil =>
    cases fuel with
    | zero => rfl
    | succ fuel =>
      rw [List.flatMap_nil, List.nil_append, decodeStreamWith, hleft]
      rfl
  | cons i is ih =>
    obtain ⟨hi, his'⟩ := List.forall_mem_cons.mp his
    cases fuel with
    | zero => nomatch hfuel
    | succ fuel =>
      have hrest := ih his' (Nat.le_of_succ_le_succ hfuel)
      rw [List.flatMap_cons, List.append_assoc, decodeStreamWith, decode_encode hi]
      simp only [hrest, List.map_cons]

/-- Every packet has a header, so a stream has at least as many words as packets. -/
theorem length_le_flatMap_encode (is : List Instr) : is.length ≤ (is.flatMap encode).length := by
  induction is with
  | nil => exact Nat.le_refl 0
  | cons i is ih =>
    rw [List.flatMap_cons, List.length_append, encode, List.length_cons, List.length_cons]
    omega

/-- Settles O3: the number of words is fuel enough. -/
theorem streamDecodesPacketByPacket : Obligations.StreamDecodesPacketByPacket := by
  intro is left his hleft
  refine decodeStreamWith_encode his hleft ?_
  rw [List.length_append]
  exact Nat.le_add_right_of_le (length_le_flatMap_encode is)

/-! ## From a packet to its command and back (R65) -/

/-- A whole packet gives a command exactly when all its reserved bits are 0. -/
theorem packetOf_eq_command {op : Op} {h : Word} {p : List Word} {i : Instr} :
    packetOf op h p = .command i ↔ headerClean op h = true ∧ symbolsClean op p = true ∧ termOf op h p = i := by
  unfold packetOf
  split
  · simp_all
  · simp_all

/-- The payload that R57 counts in a word list is counted the same when it stands alone. -/
theorem payloadLength_take {op : Op} {h : Word} {ws : List Word} {n : Nat} (hn : payloadLength op h ws = some n)
    (hl : n ≤ ws.length) : payloadLength op h (ws.take n) = some (ws.take n).length := by
  rw [List.length_take_of_le hl]
  cases op with
  | merge =>
    obtain _ | ⟨ok, _ | ⟨on, ow⟩⟩ := ws
    · nomatch hn
    · nomatch hn
    · obtain rfl : 2 + on.toNat = n := Option.some.inj hn
      rw [Nat.add_comm 2, List.take_succ_cons, List.take_succ_cons]
      exact congrArg some (Nat.add_comm 2 _)
  | init | add | test | loc | hash | rdw | rdr | bset | btst => exact hn

/-- `RSV` is 0 in a clean header (R61 (a)). -/
theorem headerRsv_of_headerClean {op : Op} {h : Word} (hc : headerClean op h = true) : headerRsv h = 0 :=
  eq_of_beq (Bool.and_eq_true_iff.mp hc).1

/-- Symbol words with clean reserved bits are the words of their symbols. -/
theorem map_symbolWord_symbolOf {p : List Word} (hp : (p.all fun w => symbolRsv w == 0) = true) :
    (p.map symbolOf).map symbolWord = p := by
  rw [List.map_map]
  refine (List.map_congr_left fun w hw => ?_).trans (List.map_id p)
  exact symbolWord_symbolOf (eq_of_beq (List.all_eq_true.mp hp w hw))

/-- The `LEN` field of a key read from as many words as a header's `LEN` says is that field. -/
theorem keyLen_map_symbolOf {h : Word} {p : List Word} (hl : (headerArg h).toNat = p.length) :
    keyLen (p.map symbolOf) = headerArg h := by
  rw [keyLen, List.length_map, ← hl, BitVec.ofNat_toNat, BitVec.setWidth_eq]

/-- The `ARG` field of a format R header whose upper half is 0 is its register number. -/
theorem headerReg_of_clean {h : Word} (hc : headerArgHigh h = 0) : (headerReg h).setWidth 16 = headerArg h := by
  apply BitVec.eq_of_toNat_eq
  have hz := congrArg BitVec.toNat hc
  rw [headerArgHigh_toNat] at hz
  simp only [BitVec.ofNat_eq_ofNat, BitVec.toNat_ofNat] at hz
  rw [BitVec.toNat_setWidth, headerReg_toNat, headerArg_toNat]
  omega

/-- The term read from a clean packet has the `ARG` field of its header. -/
theorem argOf_termOf {op : Op} {h : Word} {p : List Word} (hc : headerClean op h = true)
    (hl : payloadLength op h p = some p.length) : argOf (termOf op h p) = headerArg h := by
  have harg := (Bool.and_eq_true_iff.mp hc).2
  cases op with
  | add | test | loc => exact keyLen_map_symbolOf (Option.some.inj hl)
  | hash =>
    have hlen : 1 + (headerArg h).toNat = p.length := Option.some.inj hl
    exact keyLen_map_symbolOf (by rw [List.length_drop]; omega)
  | rdr => exact headerReg_of_clean (eq_of_beq harg)
  | init | merge | rdw | bset | btst => exact (eq_of_beq harg).symm

/-- The term read from a clean packet has the payload it was read from. -/
theorem payloadOf_termOf {op : Op} {h : Word} {p : List Word} (hs : symbolsClean op p = true)
    (hl : payloadLength op h p = some p.length) : payloadOf (termOf op h p) = p := by
  cases op with
  | add | test | loc => exact map_symbolWord_symbolOf hs
  | hash =>
    cases p with
    | nil => exact absurd (Option.some.inj hl) (by simp)
    | cons seed key => exact congrArg (seed :: ·) (map_symbolWord_symbolOf hs)
  | merge =>
    obtain _ | ⟨ok, _ | ⟨on, ow⟩⟩ := p
    · nomatch hl
    · nomatch hl
    · rfl
  | init =>
    obtain ⟨n, k, rfl⟩ := List.length_eq_two.mp (Option.some.inj hl).symm
    rfl
  | rdw | bset | btst =>
    obtain ⟨idx, rfl⟩ := List.length_eq_one_iff.mp (Option.some.inj hl).symm
    rfl
  | rdr => exact (List.length_eq_zero_iff.mp (Option.some.inj hl).symm).symm

theorem opOf_termOf (op : Op) (h : Word) (p : List Word) : opOf (termOf op h p) = op := by cases op <;> rfl

/-- A clean packet is the encoding of the term read from it. -/
theorem encode_termOf {op : Op} {h : Word} {p : List Word} (ho : opOfByte (headerOpc h) = some op)
    (hc : headerClean op h = true) (hs : symbolsClean op p = true) (hl : payloadLength op h p = some p.length) :
    encode (termOf op h p) = h :: p := by
  rw [encode, opOf_termOf, argOf_termOf hc hl, headerWord_of_clean ho (headerRsv_of_headerClean hc),
    payloadOf_termOf hs hl]

/-- Settles O2: a packet that decodes to a command is clean, so header and payload are those of its term. -/
theorem decodedCommandIsItsPacket : Obligations.DecodedCommandIsItsPacket := by
  intro ws rest i hd
  refine ⟨wellFormed_of_decode hd, ?_⟩
  cases ws with
  | nil => nomatch hd
  | cons h ws =>
    obtain ⟨-, hp, -⟩ | ⟨op, n, ho, hn, hl, hp, rfl⟩ := decode_cons_some hd
    · nomatch hp
    · obtain ⟨hc, hs, rfl⟩ := packetOf_eq_command.mp hp.symm
      rw [encode_termOf ho hc hs (payloadLength_take hn hl), List.cons_append, List.take_append_drop]

/-! ## Whole packets in numbers (R57, R60, R61) -/

/-- The header's opcode byte is its opcode number (R53). -/
theorem headerOpc_eq_ofNat (h : Word) : headerOpc h = BitVec.ofNat 8 (opcNumber h) := by
  rw [opcNumber, ← headerOpc_toNat, BitVec.ofNat_toNat, BitVec.setWidth_eq]

/-- The command of a header by its opcode number (R58). -/
theorem opOfByte_of_opcNumber {op : Op} {h : Word} (ho : opcNumber h = (opCode op).toNat) :
    opOfByte (headerOpc h) = some op := by
  rw [headerOpc_eq_ofNat, ho, BitVec.ofNat_toNat, BitVec.setWidth_eq, opOfByte_opCode]

/-- The payload that R57 calls for in numbers is the payload the decoder waits for. -/
theorem payloadLength_of_payloadOf {h : Word} {p : List Word} (hp : PayloadOf h p) :
    ∃ op, opcNumber h = (opCode op).toNat ∧ ∀ rest, payloadLength op h (p ++ rest) = some p.length := by
  obtain ⟨ho | ho | ho, hl⟩ | ⟨ho, hl⟩ | ⟨ho | ho | ho, hl⟩ | ⟨ho, hl⟩ | ⟨ho, hl⟩ | ⟨ho, ok, on, ow, rfl, hl⟩ := hp
  · exact ⟨.add, ho, fun _ => congrArg some ((headerArg_toNat h).trans hl.symm)⟩
  · exact ⟨.test, ho, fun _ => congrArg some ((headerArg_toNat h).trans hl.symm)⟩
  · exact ⟨.loc, ho, fun _ => congrArg some ((headerArg_toNat h).trans hl.symm)⟩
  · exact ⟨.hash, ho, fun _ => congrArg some (by rw [headerArg_toNat, hl])⟩
  · exact ⟨.rdw, ho, fun _ => congrArg some hl.symm⟩
  · exact ⟨.bset, ho, fun _ => congrArg some hl.symm⟩
  · exact ⟨.btst, ho, fun _ => congrArg some hl.symm⟩
  · exact ⟨.init, ho, fun _ => congrArg some hl.symm⟩
  · exact ⟨.rdr, ho, fun _ => congrArg some hl.symm⟩
  · exact ⟨.merge, ho, fun _ => congrArg some (by rw [List.length_cons, List.length_cons, hl, Nat.add_comm])⟩

theorem headerRsv_eq_zero (h : Word) : headerRsv h = 0#8 ↔ h.toNat / 2 ^ 16 % 2 ^ 8 = 0 := by
  rw [← BitVec.toNat_inj, headerRsv_toNat, BitVec.toNat_zero]

theorem headerArg_eq_zero (h : Word) : headerArg h = 0#16 ↔ h.toNat % 2 ^ 16 = 0 := by
  rw [← BitVec.toNat_inj, headerArg_toNat, BitVec.toNat_zero]

theorem headerArgHigh_eq_zero (h : Word) : headerArgHigh h = 0#8 ↔ h.toNat / 2 ^ 8 % 2 ^ 8 = 0 := by
  rw [← BitVec.toNat_inj, headerArgHigh_toNat, BitVec.toNat_zero]

theorem symbolRsv_eq_zero (w : Word) : symbolRsv w = 0#16 ↔ w.toNat < 2 ^ 16 := by
  rw [← BitVec.toNat_inj, symbolRsv_toNat, BitVec.toNat_zero]
  omega

/-- The decoder's check of the reserved bits is that of R61 in numbers: each format checks the fields it reserves. -/
theorem not_reservedBitSet_iff {op : Op} {h : Word} (ho : opcNumber h = (opCode op).toNat) (p : List Word) :
    ¬ ReservedBitSet h p ↔ headerClean op h = true ∧ symbolsClean op p = true := by
  unfold ReservedBitSet headerClean symbolsClean
  rw [ho]
  cases op with
  | add | test | loc | hash => simp [opCode, opFormat, headerRsv_eq_zero, symbolRsv_eq_zero]
  | init | merge | rdw | bset | btst => simp [opCode, opFormat, headerRsv_eq_zero, headerArg_eq_zero]
  | rdr => simp [opCode, opFormat, headerRsv_eq_zero, headerArgHigh_eq_zero]

/-- A whole packet is read with exactly its payload. -/
theorem decode_of_payloadOf {h : Word} {p : List Word} (hp : PayloadOf h p) (rest : List Word) :
    ∃ op, opcNumber h = (opCode op).toNat ∧ decode (h :: p ++ rest) = some (packetOf op h p, rest) := by
  obtain ⟨op, ho, hl⟩ := payloadLength_of_payloadOf hp
  refine ⟨op, ho, ?_⟩
  rw [List.cons_append, decode_whole (opOfByte_of_opcNumber ho) (hl rest) (by simp), List.take_left, List.drop_left]

theorem decode_malformed {h : Word} {p : List Word} (hp : PayloadOf h p) (hr : ReservedBitSet h p) (rest : List Word) :
    decode (h :: p ++ rest) = some (.malformed (headerOpc h), rest) := by
  obtain ⟨op, ho, hd⟩ := decode_of_payloadOf hp rest
  have hdirty : ¬ (headerClean op h && symbolsClean op p) = true := fun hc =>
    (not_reservedBitSet_iff ho p).mpr (Bool.and_eq_true_iff.mp hc) hr
  rw [hd, packetOf, if_neg hdirty]

theorem decode_clean {h : Word} {p : List Word} (hp : PayloadOf h p) (hr : ¬ ReservedBitSet h p) (rest : List Word) :
    ∃ op, opcNumber h = (opCode op).toNat ∧ decode (h :: p ++ rest) = some (.command (termOf op h p), rest) := by
  obtain ⟨op, ho, hd⟩ := decode_of_payloadOf hp rest
  obtain ⟨hheader, hsymbols⟩ := (not_reservedBitSet_iff ho p).mp hr
  exact ⟨op, ho, by rw [hd, packetOf_eq_command.mpr ⟨hheader, hsymbols, rfl⟩]⟩

/-- Settles O4: the payload of R57 is what the decoder takes, and the reserved bits of R61 are what it checks. -/
theorem wholePacketIsCommandOrMalformed : Obligations.WholePacketIsCommandOrMalformed := by
  intro h p rest hp
  constructor
  · intro hr
    rw [← headerOpc_eq_ofNat]
    exact decode_malformed hp hr rest
  · intro hr
    obtain ⟨op, ho, hd⟩ := decode_clean hp hr rest
    exact ⟨_, hd, by rw [opOf_termOf, ho]⟩

/-- Settles O5: each packet is the encoding of its command, word for word. -/
theorem specPacketsDecode : Obligations.SpecPacketsDecode :=
  ⟨decode_encode (i := .init 3 5) rfl [], decode_encode (i := .add [0x61, 0x62, 0x63]) rfl [],
    decode_encode (i := .hash 0x5DF43149 [0x20AC]) rfl [], decode_encode (i := .merge 7 2 [8, 9]) rfl [0x08000003#32],
    decode_encode (i := .rdw 1) rfl [], decode_encode (i := .rdr 0xFF) rfl [], decode_encode (i := .btst 37) rfl []⟩

/-! ## What the ports answer themselves (R51, R60, R61) -/

theorem decode_illegal {h : Word} (ho : OpcodeUnassigned h) (ws : List Word) :
    decode (h :: ws) = some (.illegal (headerOpc h), ws) := by
  have hnone : opOfByte (headerOpc h) = none := opOfByte_none.mpr (by rwa [headerOpc_toNat])
  rw [decode, hnone]

/-- An error packet leaves the engine with its words consumed and one header offered. -/
theorem raiseError_consumePacket {s : State} (hs : s.rsp = []) (h : Word) (e : ErrorCode) (rest : List Word) :
    raiseError (headerOpc h) e (consumePacket s rest) =
      { s with scratch := [], cmdIn := rest,
               rsp := [BitVec.ofNat 32 (opcNumber h * 2 ^ 24 + (errorByte e).toNat * 2 ^ 16)] } := by
  have hheader : responseHeader (headerOpc h) e false =
      BitVec.ofNat 32 (opcNumber h * 2 ^ 24 + (errorByte e).toNat * 2 ^ 16) := by
    rw [responseHeader, headerOpc_toNat, flagBit, Bool.toNat_false, Nat.add_zero, opcNumber]
  rw [raiseError, emit, consumePacket, hheader, hs]
  rfl

/-- Settles O6: an unassigned opcode is answered at the port. -/
theorem illegalOpcodeIsAnswered : Obligations.IllegalOpcodeIsAnswered := by
  intro s h ws ⟨hrst, hrsp⟩ hpending ho
  have hd : decode (pendingWords s) = some (.illegal (headerOpc h), ws) := by rw [hpending, decode_illegal ho]
  have hphase : nextPhase s = .settled (raiseError (headerOpc h) .illegalCmd (consumePacket s ws)) := by
    rw [nextPhase_receive hrst hrsp, receivePacket, hd]
  rw [step_settled hphase, raiseError_consumePacket hrsp]
  rfl

/-- Settles O7: a malformed packet is answered at the port. -/
theorem malformedPacketIsAnswered : Obligations.MalformedPacketIsAnswered := by
  intro s h p rest ⟨hrst, hrsp⟩ hpending hp hr
  have hd : decode (pendingWords s) = some (.malformed (headerOpc h), rest) := by
    rw [hpending, decode_malformed hp hr]
  have hphase : nextPhase s = .settled (raiseError (headerOpc h) .malformed (consumePacket s rest)) := by
    rw [nextPhase_receive hrst hrsp, receivePacket, hd]
  rw [step_settled hphase, raiseError_consumePacket hrsp]
  rfl

/-- Settles O10: with a response pending the step is the response port's. -/
theorem responseIsHeldUntilAccepted : Obligations.ResponseIsHeldUntilAccepted := by
  intro s w ws hrst hrsp
  have hstep : step s = .next (moveResponse s) := step_settled (nextPhase_response hrst hrsp)
  constructor
  · intro hready
    rw [hstep, moveResponse_held hready]
  · intro hready
    rw [hstep, moveResponse_ready hrst hrsp hready]

/-! ## The response of a command (R62, R63, R64) -/

theorem responseOpc_responseHeader (opc : Byte) (e : ErrorCode) (f : Bool) :
    responseOpc (responseHeader opc e f) = opc.toNat := by
  have := errorByte_lt e; have := flagBit_lt f
  rw [responseOpc, responseHeader_toNat]
  omega

theorem responseErr_responseHeader (opc : Byte) (e : ErrorCode) (f : Bool) :
    responseErr (responseHeader opc e f) = (errorByte e).toNat := by
  have := errorByte_lt e; have := flagBit_lt f
  rw [responseErr, responseHeader_toNat]
  omega

theorem responseZero_responseHeader (opc : Byte) (e : ErrorCode) (f : Bool) :
    responseZero (responseHeader opc e f) = 0 := by
  have := flagBit_lt f
  rw [responseZero, responseHeader_toNat]
  omega

theorem responseFlag_responseHeader (opc : Byte) (e : ErrorCode) (f : Bool) :
    responseFlag (responseHeader opc e f) = flagBit f := by
  have := flagBit_lt f
  rw [responseFlag, responseHeader_toNat]
  omega

theorem errorByte_toNat_eq_zero {e : ErrorCode} : (errorByte e).toNat = 0 ↔ e = .ok := by cases e <;> decide

/-- The number of result words of a successful command (R64). -/
def resultLength (s : State) : Instr → Nat
  | .init _ _ | .add _ | .test _ | .merge _ _ _ | .bset _ | .btst _ => 0
  | .loc _ => s.nhash.toNat
  | .hash _ _ | .rdw _ | .rdr _ => 1

/-- The commands whose response carries a `FLAG` (R63). -/
def HasFlag (i : Instr) : Prop := (∃ key, i = .test key) ∨ ∃ idx, i = .btst idx

/-- The response `t` of command `i` in state `s`: an error leaves the state as it was, a success answers the result words
beside whatever the command did to the state `u`, with no other response word. -/
inductive Answered (s : State) (i : Instr) : State → Prop where
  | error (e : ErrorCode) (he : e ≠ .ok) : Answered s i (raiseError (opCode (opOf i)) e s)
  | success (f : Bool) (ws : List Word) (u : State) (hu : u.rsp = s.rsp) (hf : f = true → HasFlag i)
      (hws : ws.length = resultLength s i) : Answered s i (respond (opCode (opOf i)) f ws u)

theorem keyLocations_length (s : State) (key : List Sym) : (keyLocations s key).length = s.nhash.toNat :=
  locationLoop_length _ _ _ _

/-- A success without `FLAG`. -/
theorem Answered.plain {s : State} {i : Instr} {ws : List Word} {u : State} (hu : u.rsp = s.rsp)
    (hws : ws.length = resultLength s i) : Answered s i (respond (opCode (opOf i)) false ws u) :=
  .success false ws u hu (fun hf => nomatch hf) hws

/-- Every command that answers a next state answers one response: an error's, or that of a success. -/
theorem exec_answered {i : Instr} {s t : State} (h : exec i s = .next t) : Answered s i t := by
  cases i with
  | init n k =>
    obtain ⟨-, created⟩ | ⟨-, refused⟩ := execInit_cases n k s
    · exact next_inj (created.symm.trans h) ▸ .plain rfl rfl
    · exact next_inj (refused.symm.trans h) ▸ .error .invalidArg (by decide)
  | add key =>
    obtain ⟨-, rfl⟩ | ⟨-, -, rfl⟩ := execAdd_next h
    · exact .error .notConfigured (by decide)
    · exact .plain rfl rfl
  | test key =>
    obtain ⟨-, rfl⟩ | ⟨-, -, rfl⟩ := execTest_next h
    · exact .error .notConfigured (by decide)
    · exact .success _ [] s rfl (fun _ => .inl ⟨key, rfl⟩) rfl
  | loc key =>
    obtain ⟨-, rfl⟩ | ⟨-, -, rfl⟩ := execLoc_next h
    · exact .error .notConfigured (by decide)
    · exact .plain rfl ((List.length_map _).trans (keyLocations_length s key))
  | hash seed key => exact next_inj ((execHash_eq seed key s).symm.trans h) ▸ .plain rfl rfl
  | merge ok on ow =>
    obtain ⟨-, rfl⟩ | ⟨-, -, rfl⟩ | ⟨-, -, -, rfl⟩ | ⟨-, -, -, rfl⟩ := execMerge_next h
    · exact .error .notConfigured (by decide)
    · exact .error .incompatHashes (by decide)
    · exact .error .incompatSize (by decide)
    · exact .plain rfl rfl
  | rdw idx =>
    obtain ⟨-, rfl⟩ | ⟨-, -, rfl⟩ | ⟨-, -, rfl⟩ := execRdw_next h
    · exact .error .notConfigured (by decide)
    · exact .plain rfl rfl
    · exact .error .range (by decide)
  | rdr reg =>
    obtain ⟨v, -, answered⟩ | ⟨-, answered⟩ := execRdr_cases reg s
    · exact next_inj (answered.symm.trans h) ▸ .plain rfl rfl
    · exact next_inj (answered.symm.trans h) ▸ .error .range (by decide)
  | bset idx =>
    obtain ⟨-, rfl⟩ | ⟨-, -, rfl⟩ | ⟨-, -, rfl⟩ := execBset_next h
    · exact .error .notConfigured (by decide)
    · exact .plain rfl rfl
    · exact .error .range (by decide)
  | btst idx =>
    obtain ⟨-, rfl⟩ | ⟨-, -, rfl⟩ | ⟨-, -, rfl⟩ := execBtst_next h
    · exact .error .notConfigured (by decide)
    · exact .success _ [] s rfl (fun _ => .inr ⟨idx, rfl⟩) rfl
    · exact .error .range (by decide)

/-- Settles O23: the fields of the response header, read off the error and off the success. -/
theorem oneResponsePerCommand : Obligations.OneResponsePerCommand := by
  intro i s t h
  cases exec_answered h with
  | error e he =>
    have herr : responseErr (responseHeader (opCode (opOf i)) e false) ≠ 0 := by
      rw [responseErr_responseHeader]
      exact fun h0 => he (errorByte_toNat_eq_zero.mp h0)
    refine ⟨_, [], rfl, responseOpc_responseHeader _ _ _, responseZero_responseHeader _ _ _, fun hflag => ?_,
      fun _ => rfl, fun h0 => absurd h0 herr⟩
    rw [responseFlag_responseHeader] at hflag
    nomatch hflag
  | success f ws u hu hf hws =>
    have herr : responseErr (responseHeader (opCode (opOf i)) .ok f) = 0 := responseErr_responseHeader _ _ _
    refine ⟨_, ws, congrArg (· ++ _) hu, responseOpc_responseHeader _ _ _, responseZero_responseHeader _ _ _,
      fun hflag => ⟨herr, hf ?_⟩, fun h0 => absurd herr h0, fun _ => ?_⟩
    · rw [responseFlag_responseHeader] at hflag
      cases f with
      | false => nomatch hflag
      | true => rfl
    · rw [hws]
      cases i <;> rfl

/-! ## SAVE (R68, R158) -/

theorem emit_emit (s : State) (ws vs : List Word) : emit (emit s ws) vs = emit s (ws ++ vs) := by
  rw [emit, emit, emit, List.append_assoc]

/-- RDW of a word of the array answers that word. -/
theorem exec_rdw_of_lt {s : State} (hc : s.configured = true) {j : Nat} (hj : j < s.nwords.toNat) :
    exec (.rdw (BitVec.ofNat 32 j)) s = .next (emit s [0x07000000#32, readWord s.mem j]) := by
  have hidx : (BitVec.ofNat 32 j).toNat = j := by
    rw [BitVec.toNat_ofNat, Nat.mod_eq_of_lt (Nat.lt_trans hj s.nwords.isLt)]
  have hlegal : wordIndexLegal (BitVec.ofNat 32 j) s = true := decide_eq_true (by rwa [hidx])
  calc exec (.rdw (BitVec.ofNat 32 j)) s
    _ = .next (respond (opCode .rdw) false [readWord s.mem (BitVec.ofNat 32 j).toNat] s) := by
      rw [exec, execRdw, whenConfigured_true hc, if_pos hlegal]
    _ = .next (emit s [0x07000000#32, readWord s.mem j]) := by rw [hidx]; rfl

/-- Reading words of the array answers them in order and changes nothing. -/
theorem execAll_rdw {s : State} (hc : s.configured = true) {js : List Nat} (hjs : ∀ j ∈ js, j < s.nwords.toNat) :
    execAll (js.map fun j => .rdw (BitVec.ofNat 32 j)) s =
      .next (emit s ((js.map (readWord s.mem)).flatMap fun w => [0x07000000#32, w])) := by
  induction js generalizing s with
  | nil => simp [emit]
  | cons j js ih =>
    obtain ⟨hj, hjs'⟩ := List.forall_mem_cons.mp hjs
    have hrest := ih (s := emit s [0x07000000#32, readWord s.mem j]) hc hjs'
    rw [List.map_cons, execAll_cons (exec_rdw_of_lt hc hj), hrest, emit_emit]
    rfl

theorem exec_rdr_nhash (s : State) : exec (.rdr regNhash) s = .next (emit s [0x08000000#32, s.nhash]) := rfl

theorem exec_rdr_nwords (s : State) : exec (.rdr regNwords) s = .next (emit s [0x08000000#32, s.nwords]) := rfl

/-- The two register reads of SAVE answer the hash count and the word count. -/
theorem execAll_registers (is : List Instr) (s : State) :
    execAll (.rdr regNhash :: .rdr regNwords :: is) s =
      execAll is (emit s [0x08000000#32, s.nhash, 0x08000000#32, s.nwords]) := by
  rw [execAll_cons (exec_rdr_nhash s), execAll_cons (exec_rdr_nwords _), emit_emit]
  rfl

/-- Settles O52: two register reads, then every word of the array, each response behind those before it. -/
theorem saveReadsTheWholeFilter : Obligations.SaveReadsTheWholeFilter := by
  intro s hc
  rw [saveMacro, execAll_registers]
  exact execAll_rdw (s := emit s _) hc fun _ => List.mem_range.mp

end Sys2Proof.Machine
end

section
/-! PROOF. Family 40_hash_engine (R80 to R88): the bijections the mixer is built from, the fold in numbers and for byte
and wide symbols, and HASH. -/

namespace Sys2Proof.Machine

/-! ## Bijections of the words (R82, R83) -/

theorem mul_bijective_of_mul_eq_one {u v : Word} (h : u * v = 1) : Function.Bijective fun a : Word => a * u :=
  IsUnit.isUnit_iff_mulRight_bijective.mp (IsUnit.of_mul_eq_one v h)

theorem add_shiftLeft_eq_mul (a : Word) (k : Nat) : a + a <<< k = a * (1 + BitVec.twoPow 32 k) := by
  rw [BitVec.shiftLeft_eq_mul_twoPow, mul_add, mul_one]

/-- Adding a left shift multiplies by `1 + 2^k`, so an inverse of that factor undoes it. -/
theorem add_shiftLeft_bijective {k : Nat} {v : Word} (h : (1 + BitVec.twoPow 32 k) * v = 1) :
    Function.Bijective fun a : Word => a + a <<< k := by
  simpa only [add_shiftLeft_eq_mul] using mul_bijective_of_mul_eq_one h

/-- Only zero is its own right shift by a positive amount. -/
theorem eq_zero_of_eq_ushiftRight {a : Word} {k : Nat} (hk : 0 < k) (h : a = a >>> k) : a = 0 := by
  have hdiv : a.toNat = a.toNat / 2 ^ k :=
    calc a.toNat
      _ = (a >>> k).toNat := congrArg BitVec.toNat h
      _ = a.toNat / 2 ^ k := by rw [BitVec.toNat_ushiftRight, Nat.shiftRight_eq_div_pow]
  by_contra hne
  have hpos : 0 < a.toNat := Nat.pos_of_ne_zero fun h0 => hne (BitVec.eq_of_toNat_eq h0)
  have hlt : a.toNat / 2 ^ k < a.toNat := Nat.div_lt_self hpos (Nat.one_lt_two_pow hk.ne')
  exact hlt.ne hdiv.symm

/-- The difference of two words with the same image is its own right shift, hence zero. -/
theorem xor_ushiftRight_bijective {k : Nat} (hk : 0 < k) : Function.Bijective fun a : Word => a ^^^ a >>> k := by
  refine Finite.injective_iff_bijective.mp fun a b h => BitVec.xor_eq_zero_iff.mp (eq_zero_of_eq_ushiftRight hk ?_)
  have h0 : (a ^^^ a >>> k) ^^^ (b ^^^ b >>> k) = 0#32 := BitVec.xor_eq_zero_iff.mpr h
  rw [BitVec.ushiftRight_xor_distrib, ← BitVec.xor_eq_zero_iff, ← h0]
  ac_rfl

/-- Settles O39: each of the five assignments of the default mix is a bijection. -/
theorem statedMixIsBijective : Obligations.StatedMixIsBijective := by
  have h1 := add_shiftLeft_bijective (k := 13) (v := 0x03FFE001) (by decide)
  have h2 := xor_ushiftRight_bijective (k := 7) (by decide)
  have h3 := add_shiftLeft_bijective (k := 3) (v := 0x38E38E39) (by decide)
  have h4 := xor_ushiftRight_bijective (k := 17) (by decide)
  have h5 := add_shiftLeft_bijective (k := 5) (v := 0x3E0F83E1) (by decide)
  exact h5.comp (h4.comp (h3.comp (h2.comp h1)))

theorem fnvMultiply_bijective : Function.Bijective fnvMultiply :=
  mul_bijective_of_mul_eq_one (u := fnvPrime) (v := 0x359C449B) (by decide)

/-- The prime has its set bits at 0, 1, 4, 7, 8 and 24. -/
theorem fnvMultiply_eq_shiftAdd (a : Word) :
    fnvMultiply a = a + (a <<< 1) + (a <<< 4) + (a <<< 7) + (a <<< 8) + (a <<< 24) := by
  have hprime : fnvPrime = 1 + BitVec.twoPow 32 1 + BitVec.twoPow 32 4 + BitVec.twoPow 32 7 + BitVec.twoPow 32 8 +
      BitVec.twoPow 32 24 := by decide
  simp only [fnvMultiply, hprime, BitVec.shiftLeft_eq_mul_twoPow, mul_add, mul_one]

/-- Settles O38: product, shift-and-add form, bijection and corner values. -/
theorem fnvMultiplyIsShiftAndAdd : Obligations.FnvMultiplyIsShiftAndAdd :=
  ⟨fun a => ⟨fnvMultiply_toNat a, fnvMultiply_eq_shiftAdd a⟩, fnvMultiply_bijective,
    by decide, by decide, by decide, by decide⟩

/-! ## The fold of one symbol (R84, R86) -/

theorem foldSymbol_of_byte {c : Sym} (hc : c.toNat < 256) (acc : Word) :
    foldSymbol acc c = fnvMultiply (acc ^^^ symLow c) := by
  rw [foldSymbol, if_neg (not_not.mpr ((symHigh_eq_zero c).mpr hc))]

theorem foldSymbol_of_wide {c : Sym} (hc : 256 ≤ c.toNat) (acc : Word) :
    foldSymbol acc c = fnvMultiply (fnvMultiply (acc ^^^ symHigh c) ^^^ symLow c) := by
  rw [foldSymbol, if_pos (mt (symHigh_eq_zero c).mp hc.not_gt)]

/-- A number below 256 as a symbol is its own low part. -/
theorem symLow_ofNat {n : Nat} (hn : n < 256) : symLow (BitVec.ofNat 16 n) = BitVec.ofNat 32 n := by
  refine BitVec.eq_of_toNat_eq ?_
  rw [symLow_toNat, BitVec.toNat_ofNat, BitVec.toNat_ofNat]
  omega

/-- A number below 256 is folded as a byte symbol. -/
theorem foldSymbol_ofNat {n : Nat} (hn : n < 256) (acc : Word) :
    foldSymbol acc (BitVec.ofNat 16 n) = fnvMultiply (acc ^^^ BitVec.ofNat 32 n) := by
  have hbyte : (BitVec.ofNat 16 n).toNat < 256 := by rw [BitVec.toNat_ofNat]; omega
  rw [foldSymbol_of_byte hbyte, symLow_ofNat hn]

theorem symHigh_eq_ofNat (c : Sym) : symHigh c = BitVec.ofNat 32 (c.toNat / 256) := by
  rw [← symHigh_toNat, BitVec.ofNat_toNat, BitVec.setWidth_eq]

theorem symLow_eq_ofNat (c : Sym) : symLow c = BitVec.ofNat 32 (c.toNat % 256) := by
  rw [← symLow_toNat, BitVec.ofNat_toNat, BitVec.setWidth_eq]

/-- The high and the low part as two byte symbols fold like the wide symbol. -/
theorem foldSymbol_wide_eq_two {c : Sym} (hc : 256 ≤ c.toNat) (acc : Word) :
    foldSymbol (foldSymbol acc (BitVec.ofNat 16 (c.toNat / 256))) (BitVec.ofNat 16 (c.toNat % 256)) =
      foldSymbol acc c := by
  have hhigh : c.toNat / 256 < 256 := by omega
  have hlow : c.toNat % 256 < 256 := by omega
  rw [foldSymbol_ofNat hhigh, foldSymbol_ofNat hlow, foldSymbol_of_wide hc, symHigh_eq_ofNat, symLow_eq_ofNat]

/-- Settles O40: the two folds agree at the symbol, and all before and after it is the same. -/
theorem wideSymbolHashesAsTwoSymbols : Obligations.WideSymbolHashesAsTwoSymbols := by
  intro mix pre post c seed hc
  simp only [fnv1a, fnvAccumulate, List.foldl_append, List.foldl_cons, foldSymbol_wide_eq_two hc]

/-- A byte symbol is folded by one XOR and one product with the prime. -/
theorem foldSymbol_of_byte_eq_product {c : Sym} (hc : c.toNat < 256) (acc : Word) :
    foldSymbol acc c = BitVec.ofNat 32 ((acc ^^^ c.setWidth 32).toNat * 16777619) := by
  have hlow : symLow c = c.setWidth 32 := by
    rw [symLow_eq_ofNat, Nat.mod_eq_of_lt hc, BitVec.ofNat_toNat]
  refine BitVec.eq_of_toNat_eq ?_
  rw [foldSymbol_of_byte hc, hlow, fnvMultiply_toNat, BitVec.toNat_ofNat]

/-- Settles O41: seed 0 leaves the offset basis, and every byte is one round of the standard loop. -/
theorem byteKeysHashAsStandardFnv : Obligations.ByteKeysHashAsStandardFnv :=
  fun _ hkey => List.foldl_ext _ _ _ fun acc c hc => foldSymbol_of_byte_eq_product (hkey c hc) acc

/-! ## Different seeds (R86) -/

/-- With the symbol fixed, the fold is XORs with a constant and products with the prime. -/
theorem foldSymbol_injective (c : Sym) : Function.Injective fun acc => foldSymbol acc c := by
  have round (v : Word) : Function.Injective fun acc => fnvMultiply (acc ^^^ v) :=
    fnvMultiply_bijective.injective.comp fun _ _ => (BitVec.xor_left_inj v).mp
  obtain hc | hc := Nat.lt_or_ge c.toNat 256
  · simpa only [foldSymbol_of_byte hc] using round (symLow c)
  · simpa only [foldSymbol_of_wide hc, Function.comp_def] using (round (symLow c)).comp (round (symHigh c))

theorem foldl_foldSymbol_injective (key : List Sym) : Function.Injective fun acc => key.foldl foldSymbol acc := by
  induction key with
  | nil => exact Function.injective_id
  | cons c key ih => exact ih.comp (foldSymbol_injective c)

/-- Settles O42: the offset XOR, the fold of the key and the default mix are injective one after the other. -/
theorem differentSeedsGiveDifferentDigests : Obligations.DifferentSeedsGiveDifferentDigests := by
  intro key seed1 seed2 hne hdigest
  have hacc : fnvAccumulate key seed1 = fnvAccumulate key seed2 := statedMixIsBijective.injective hdigest
  exact hne ((BitVec.xor_right_inj fnvOffset).mp (foldl_foldSymbol_injective key hacc))

/-! ## HASH (R84, R85, R87) -/

theorem fnvMultiply_eq_fnvNumber (a : Word) : fnvMultiply a = fnvNumber a := by
  refine BitVec.eq_of_toNat_eq ?_
  rw [fnvMultiply_toNat, fnvNumber, BitVec.toNat_ofNat, Nat.mod_mod]

theorem foldSymbol_eq_foldNumber : foldSymbol = foldNumber := by
  funext acc c
  obtain hc | hc := Nat.lt_or_ge c.toNat 256
  · have hhigh : c.toNat / 256 = 0 := Nat.div_eq_of_lt hc
    rw [foldSymbol_of_byte hc, foldNumber, if_pos hhigh, fnvMultiply_eq_fnvNumber, symLow_eq_ofNat]
  · have hhigh : c.toNat / 256 ≠ 0 := by omega
    rw [foldSymbol_of_wide hc, foldNumber, if_neg hhigh, fnvMultiply_eq_fnvNumber, fnvMultiply_eq_fnvNumber,
      symHigh_eq_ofNat, symLow_eq_ofNat]

/-- The model's digest is that of R84 and R85 in numbers. -/
theorem fnv1a_eq_fnv1aNumber (mix : MixChoice) (key : List Sym) (seed : Word) :
    fnv1a mix key seed = fnv1aNumber mix key seed := by
  rw [fnv1a, fnvAccumulate, foldSymbol_eq_foldNumber]
  rfl

/-- Settles O32: HASH answers one header and the digest, in numbers, in every state. -/
theorem hashAnswersTheDigest : Obligations.HashAnswersTheDigest := by
  intro seed key s
  rw [← fnv1a_eq_fnv1aNumber]
  exact execHash_eq seed key s

end Sys2Proof.Machine
end

section
/-! PROOF. Family 41_location_generator (R100 to R105): the loop emits remainders of `A + i * B`, so range, closed form,
period and the blindness for the reading of the digests are facts about the floored remainder; then the command LOC. -/

namespace Sys2Proof.Machine

/-! ## The floored remainder (00_scope R7) -/

/-- The floored remainder looks at nothing but the residue class. -/
theorem floorMod_congr {m : Nat} {a b : Int} (h : a ≡ b [ZMOD m]) : floorMod a m = floorMod b m :=
  congrArg Int.toNat h

theorem floorMod_modEq (a : Int) {m : Nat} (hm : 0 < m) : (floorMod a m : Int) ≡ a [ZMOD m] := by
  rw [floorMod_cast a hm]
  exact Int.mod_modEq a m

theorem floorMod_natCast (n m : Nat) : floorMod (n : Int) m = n % m := rfl

/-- Settles O47: `x + b` has the residue of the sum of two indices, and such a sum wraps at most once. -/
theorem subtractingGeneratorAgrees : Obligations.SubtractingGeneratorAgrees := by
  intro m x b hx
  have hm : 0 < m := Nat.zero_lt_of_lt hx
  have hadd : (x + b : Int) ≡ (x + floorMod b m : Nat) [ZMOD m] := by
    rw [Nat.cast_add]
    exact (floorMod_modEq b hm).symm.add_left x
  rw [floorMod_congr hadd, floorMod_natCast, Nat.add_mod_eq_ite, Nat.mod_eq_of_lt hx,
    Nat.mod_eq_of_lt (floorMod_lt b hm)]

/-! ## The loop (R103, R104) -/

/-- Settles O43: each index is the start of the loop or a later remainder. -/
theorem locationsAreInRange : Obligations.LocationsAreInRange := by
  intro cfg m k key hm
  refine ⟨locationLoop_length _ _ _ _, fun x hx => ?_⟩
  obtain rfl | ⟨z, rfl⟩ := mem_locationLoop hx
  · exact floorMod_lt _ hm
  · exact floorMod_lt _ hm

/-- The loop started at the remainder of `a` emits the remainders of `a + i * b`. -/
theorem locationLoop_eq_map {m : Nat} (hm : 0 < m) (a b : Int) (k : Nat) :
    locationLoop m b k (floorMod a m) = (List.range k).map fun i : Nat => floorMod (a + i * b) m := by
  induction k generalizing a with
  | zero => rfl
  | succ k ih =>
    have next : floorMod (floorMod a m + b) m = floorMod (a + b) m :=
      floorMod_congr ((floorMod_modEq a hm).add_right b)
    have shift (i : Nat) : a + b + i * b = a + (i + 1 : Nat) * b := by push_cast; ring
    rw [locationLoop, next, ih, List.range_succ_eq_map, List.map_cons, List.map_map]
    simp [Function.comp_def, shift]

/-- The closed form reads the model's digests. -/
theorem closedLocation_eq_floorMod (cfg : Config) (m : Nat) (key : List Sym) (i : Nat) :
    closedLocation cfg m key i =
      floorMod (digestInt cfg.signedDigest (digestA cfg.mix key) +
        i * digestInt cfg.signedDigest (digestB cfg.mix key)) m := by
  rw [digestA, digestB, fnv1a_eq_fnv1aNumber, fnv1a_eq_fnv1aNumber]
  rfl

theorem locations_eq_closedLocation (cfg : Config) {m : Nat} (hm : 0 < m) (k : Nat) (key : List Sym) :
    locations cfg m k key = (List.range k).map (closedLocation cfg m key) := by
  rw [locations, locationsOf, locationLoop_eq_map hm]
  exact List.map_congr_left fun i _ => (closedLocation_eq_floorMod cfg m key i).symm

/-- Settles O44: the loop in closed form, with the digests in numbers. -/
theorem locationsHaveTheClosedForm : Obligations.LocationsHaveTheClosedForm :=
  fun cfg _ k key hm => locations_eq_closedLocation cfg hm k key

/-- The two readings of a digest differ by a multiple of `2^32`. -/
theorem digestInt_modEq (d : Word) {e : Nat} (he : e ≤ 32) :
    digestInt true d ≡ digestInt false d [ZMOD (2 ^ e : Nat)] := by
  have hword : digestInt true d ≡ digestInt false d [ZMOD (2 ^ 32 : Nat)] := by
    change d.toInt % _ = (d.toNat : Int) % _
    rw [BitVec.toInt_eq_toNat_bmod, Int.bmod_emod]
  exact hword.of_dvd (Int.natCast_dvd_natCast.mpr (Nat.pow_dvd_pow 2 he))

/-- Settles O45: a power of two up to `2^32` divides the difference of the two readings. -/
theorem signednessIsInvisibleForPowersOfTwo : Obligations.SignednessIsInvisibleForPowersOfTwo := by
  intro a b e k he
  have hm : 0 < 2 ^ e := Nat.two_pow_pos e
  rw [locationsOf, locationsOf, locationLoop_eq_map hm, locationLoop_eq_map hm]
  exact List.map_congr_left fun i _ =>
    floorMod_congr ((digestInt_modEq a he).add ((digestInt_modEq b he).mul_left i))

/-- A multiple of `b` by the period is a multiple of `m`. -/
theorem period_mul_modEq_zero {m : Nat} (hm : 0 < m) (b : Int) :
    ((m / Nat.gcd (floorMod b m) m : Nat) : Int) * b ≡ 0 [ZMOD m] := by
  have hdvd : m ∣ m / Nat.gcd (floorMod b m) m * floorMod b m := by
    rw [Nat.div_mul_right_comm (Nat.gcd_dvd_right _ _), Nat.mul_div_assoc _ (Nat.gcd_dvd_left _ _)]
    exact Nat.dvd_mul_right _ _
  calc ((m / Nat.gcd (floorMod b m) m : Nat) : Int) * b
    _ ≡ ((m / Nat.gcd (floorMod b m) m : Nat) : Int) * (floorMod b m : Int) [ZMOD m] :=
      (floorMod_modEq b hm).symm.mul_left _
    _ ≡ 0 [ZMOD m] := Int.modEq_zero_iff_dvd.mpr (by exact_mod_cast hdvd)

/-- Settles O46: the summand that a whole period adds is a multiple of `m`. -/
theorem locationsRepeatWithThePeriod : Obligations.LocationsRepeatWithThePeriod := by
  intro cfg m i key hm
  rw [closedLocation_eq_floorMod, closedLocation_eq_floorMod, Nat.cast_add, add_mul, ← add_assoc]
  refine floorMod_congr (((period_mul_modEq_zero hm _).add_left _).trans ?_)
  rw [add_zero]

/-! ## LOC, and the commands on locations without a word (R101, R105) -/

/-- Settles O31: the invariant makes `MBITS` positive, and the result words are the locations in closed form. -/
theorem locAnswersTheLocations : Obligations.LocAnswersTheLocations := by
  intro key s hs hc
  have hm : mbits s ≠ 0 := hs.mbits_ne_zero hc
  refine (execLoc_of_configured hc hm).trans ?_
  rw [keyLocations, locations_eq_closedLocation s.cfg (Nat.pos_of_ne_zero hm), List.map_map]
  rfl

/-- What ADD, TEST and LOC share, where `MBITS` is no divisor (log 9). -/
theorem withLocations_of_no_bits {opc : Byte} {key : List Sym} {s : State} {go : List Nat → State}
    (hc : s.configured = true) (hm : mbits s = 0) : withLocations opc key s go = .fault .remainderByZero := by
  rw [withLocations, whenConfigured_true hc, if_pos hm]

/-- Settles O27: without words `MBITS` is 0. -/
theorem configuredWithoutWordsFaults : Obligations.ConfiguredWithoutWordsFaults := by
  intro s key hc hn
  have hm : mbits s = 0 := by rw [mbits, hn]; rfl
  change execAdd key s = _ ∧ execTest key s = _ ∧ execLoc key s = _
  exact ⟨withLocations_of_no_bits hc hm, withLocations_of_no_bits hc hm, withLocations_of_no_bits hc hm⟩

end Sys2Proof.Machine
end

section
/-! PROOF. Family 42_bit_array (R110 to R117): RDW, BSET and BTST answer `ERR_RANGE` beyond their limit, and inside it a
word in bytes, one bit set, one bit as `FLAG`. -/

namespace Sys2Proof.Machine

/-! ## The index checks (R33) -/

theorem wordIndexLegal_of_le {idx : Word} {s : State} (h : s.nwords.toNat ≤ idx.toNat) :
    wordIndexLegal idx s = false := decide_eq_false h.not_gt

theorem bitIndexLegal_of_lt {idx : Word} {s : State} (h : idx.toNat < 32 * s.nwords.toNat) :
    bitIndexLegal idx s = true := decide_eq_true h

theorem bitIndexLegal_of_le {idx : Word} {s : State} (h : 32 * s.nwords.toNat ≤ idx.toNat) :
    bitIndexLegal idx s = false := decide_eq_false h.not_gt

/-- What a configured engine answers to BSET, BTST and RDW of an index inside the array. -/
theorem indexed_of_legal {opc : Byte} {s : State} {legal : Bool} {go refused : Result} (hc : s.configured = true)
    (hl : legal = true) : whenConfigured opc s (if legal then go else refused) = go := by
  rw [whenConfigured_true hc, if_pos hl]

/-- What a configured engine answers to BSET, BTST and RDW of any other index. -/
theorem indexed_of_illegal {opc : Byte} {s : State} {legal : Bool} {go refused : Result} (hc : s.configured = true)
    (hl : legal = false) : whenConfigured opc s (if legal then go else refused) = refused := by
  rw [whenConfigured_true hc, hl, if_neg Bool.false_ne_true]

/-! ## RDW (R117) -/

/-- Byte `j` of word `i` in numbers is byte `4 * i + j` of the byte view (R36). -/
theorem readWord_div_mod_eq_read (m : List Host.Cell) (i : Nat) {j : Nat} (hj : j < 4) :
    (readWord m i).toNat / 2 ^ (8 * j) % 2 ^ 8 = (Memory.read m (4 * i + j)).toNat := by
  have hword : (4 * i + j) / 4 = i := by omega
  have hbyte : (4 * i + j) % 4 = j := by omega
  rw [read_eq_wordByte, hword, hbyte]
  exact (wordByte_toNat _ j).symm

/-- Settles O34: the word read, seen byte by byte, is the byte view. -/
theorem rdwAnswersTheWord : Obligations.RdwAnswersTheWord := by
  intro idx s hc
  constructor
  · intro hidx
    have hword := exec_rdw_of_lt hc hidx
    rw [BitVec.ofNat_toNat, BitVec.setWidth_eq] at hword
    exact ⟨readWord s.mem idx.toNat, hword, fun j => readWord_div_mod_eq_read s.mem idx.toNat⟩
  · intro hidx
    exact indexed_of_illegal hc (wordIndexLegal_of_le hidx)

/-! ## BSET (R111, R115) -/

/-- Setting a bit leaves every byte outside its word as it was. -/
theorem read_bitSet_of_ne {m : List Host.Cell} (hm : Memory.wf m) {b a : Nat} (h : a / 4 ≠ bitWord b) :
    Memory.read (bitSet m b) a = Memory.read m a := by
  rw [read_eq_wordByte, read_eq_wordByte, readWord_bitSet_of_ne hm h.symm]

theorem bitTest_bitSet_iff {m : List Host.Cell} (hm : Memory.wf m) (b c : Nat) :
    bitTest (bitSet m b) c = true ↔ bitTest m c = true ∨ c = b := by
  rw [bitTest_bitSet hm, Bool.or_eq_true, decide_eq_true_eq]

/-- Settles O36: what BSET writes is one bit set in a canonical array. -/
theorem bsetSetsExactlyOneBit : Obligations.BsetSetsExactlyOneBit := by
  rintro idx s ⟨-, -, hmem, -⟩ hc
  constructor
  · intro hidx
    exact ⟨_, execBset_of_legal hc (bitIndexLegal_of_lt hidx), rfl, bitTest_bitSet_iff hmem idx.toNat,
      fun a => read_bitSet_of_ne hmem⟩
  · intro hidx
    exact indexed_of_illegal hc (bitIndexLegal_of_le hidx)

/-! ## BTST (R110, R116) -/

/-- The `FLAG` of a bit test in numbers: bit `b mod 32` of word `b div 32` (R31, R63). -/
theorem flagBit_bitTest (m : List Host.Cell) (b : Nat) :
    flagBit (bitTest m b) = (readWord m (b / 32)).toNat / 2 ^ (b % 32) % 2 := by
  rw [bitTest_eq]
  exact Nat.toNat_testBit _ _

theorem execBtst_of_legal {idx : Word} {s : State} (hc : s.configured = true) (hi : bitIndexLegal idx s = true) :
    execBtst idx s = .next (respond (opCode .btst) (bitTest s.mem idx.toNat) [] s) :=
  indexed_of_legal hc hi

/-- Settles O37: the response is one header, and its `FLAG` is the bit in numbers. -/
theorem btstAnswersTheBit : Obligations.BtstAnswersTheBit := by
  intro idx s hc
  constructor
  · intro hidx
    rw [← flagBit_bitTest]
    exact execBtst_of_legal hc (bitIndexLegal_of_lt hidx)
  · intro hidx
    exact indexed_of_illegal hc (bitIndexLegal_of_le hidx)

end Sys2Proof.Machine
end

section
/-! PROOF. Family 43_filter_ops (R130 to R140): INIT, ADD, MERGE and RDR each answer their response beside the change
they make. What TEST answers is one property of a state, `Reports`, which stays as long as the geometry does and no bit
is cleared; so a filter has no false negatives, and a union keeps every key. -/

namespace Sys2Proof.Machine

/-! ## INIT (R130, R131) -/

theorem execInit_of_legal {n k : Word} {s : State} (hn : 1 ≤ n.toNat) (hnMax : n.toNat ≤ s.cfg.nMax)
    (hk : 1 ≤ k.toNat) (hkMax : k.toNat ≤ s.cfg.kMax) :
    execInit n k s = .next (respond (opCode .init) false [] (createFilter n k s)) :=
  if_pos ((initLegal_iff n k s).mpr ⟨hn, hnMax, hk, hkMax⟩)

theorem execInit_of_illegal {n k : Word} {s : State}
    (h : n.toNat = 0 ∨ s.cfg.nMax < n.toNat ∨ k.toNat = 0 ∨ s.cfg.kMax < k.toNat) :
    execInit n k s = .next (raiseError (opCode .init) .invalidArg s) := by
  refine if_neg fun legal => ?_
  obtain ⟨hn, hnMax, hk, hkMax⟩ := (initLegal_iff n k s).mp legal
  omega

/-- Settles O28: the array of a new filter lists no byte. -/
theorem initCreatesAnEmptyFilter : Obligations.InitCreatesAnEmptyFilter := by
  intro n k s
  constructor
  · intro hn hnMax hk hkMax
    exact ⟨_, execInit_of_legal hn hnMax hk hkMax, rfl, rfl, Memory.wf_nil, readWord_nil, fun _ => rfl⟩
  · exact execInit_of_illegal

/-! ## The locations of a key -/

/-- The locations of a key are the closed form's, for the `NHASH` indices (R104). -/
theorem mem_keyLocations {s : State} (hm : mbits s ≠ 0) {key : List Sym} {b : Nat} :
    b ∈ keyLocations s key ↔ ∃ i, i < s.nhash.toNat ∧ b = closedLocation s.cfg (mbits s) key i := by
  rw [keyLocations, locations_eq_closedLocation s.cfg (Nat.pos_of_ne_zero hm)]
  simp only [List.mem_map, List.mem_range, eq_comm]

theorem closedLocation_mem_keyLocations {s : State} (hm : mbits s ≠ 0) {key : List Sym} {i : Nat}
    (hi : i < s.nhash.toNat) : closedLocation s.cfg (mbits s) key i ∈ keyLocations s key :=
  (mem_keyLocations hm).mpr ⟨i, hi, rfl⟩

/-- `t` has a filter of the same geometry as `s`, and an engine that hashes and reads digests as that of `s` does. -/
structure SameGeometry (s t : State) : Prop where
  configured : t.configured = s.configured
  nwords : t.nwords = s.nwords
  nhash : t.nhash = s.nhash
  mix : t.cfg.mix = s.cfg.mix
  signedDigest : t.cfg.signedDigest = s.cfg.signedDigest

theorem SameGeometry.trans {s t u : State} (h₁ : SameGeometry s t) (h₂ : SameGeometry t u) : SameGeometry s u :=
  ⟨h₂.configured.trans h₁.configured, h₂.nwords.trans h₁.nwords, h₂.nhash.trans h₁.nhash, h₂.mix.trans h₁.mix,
    h₂.signedDigest.trans h₁.signedDigest⟩

theorem SameGeometry.mbits {s t : State} (h : SameGeometry s t) : mbits t = mbits s :=
  congrArg (32 * ·.toNat) h.nwords

/-- The locations of a key depend on nothing else (R100). -/
theorem SameGeometry.keyLocations {s t : State} (h : SameGeometry s t) (key : List Sym) :
    keyLocations t key = keyLocations s key := by
  rw [Machine.keyLocations, Machine.keyLocations, locations, locations, h.mix, h.signedDigest, h.mbits, h.nhash]

/-- A command other than INIT keeps the geometry. -/
theorem exec_sameGeometry {i : Instr} {s t : State} (hi : isInit i = false) (h : exec i s = .next t) :
    SameGeometry s t := by
  obtain ⟨⟨hcfg, -⟩, hregs⟩ := commandsLeaveRegistersAndPorts i s t h
  obtain ⟨hc, hn, hk⟩ := hregs hi
  exact ⟨hc, hn, hk, congrArg Config.mix hcfg, congrArg Config.signedDigest hcfg⟩

theorem execAll_sameGeometry {is : List Instr} {s t : State} (his : ∀ i ∈ is, isInit i = false)
    (h : execAll is s = .next t) : SameGeometry s t := by
  induction is generalizing s with
  | nil =>
    obtain rfl : s = t := next_inj h
    exact ⟨rfl, rfl, rfl, rfl, rfl⟩
  | cons i is ih =>
    obtain ⟨u, hexec, hrest⟩ := execAll_cons_inv h
    obtain ⟨hi, his'⟩ := List.forall_mem_cons.mp his
    exact (exec_sameGeometry hi hexec).trans (ih his' hrest)

/-! ## TEST (R134, R135 (a)) -/

/-- The filter of `s` reports the key: it has one, and the bits of all locations of the key are set. -/
structure Reports (s : State) (key : List Sym) : Prop where
  configured : s.configured = true
  hasBits : mbits s ≠ 0
  allSet : ∀ b ∈ keyLocations s key, bitTest s.mem b = true

/-- TEST answers `FLAG = 1` exactly for the keys that the filter reports, in every state. -/
theorem exec_test_flag_iff_reports (s : State) (key : List Sym) :
    exec (.test key) s = .next { s with rsp := s.rsp ++ [0x03000001#32] } ↔ Reports s key := by
  constructor
  · intro h
    obtain ⟨-, herror⟩ | ⟨hc, hm, hflag⟩ := execTest_next h
    · have hheader := List.append_cancel_left (congrArg State.rsp herror)
      exact absurd hheader (by decide)
    · have hheader := List.append_cancel_left (congrArg State.rsp hflag)
      have flag_of_header : ∀ flag, [0x03000001#32] = [responseHeader (opCode .test) .ok flag] → flag = true := by
        decide
      exact ⟨hc, hm, List.all_eq_true.mp (flag_of_header _ hheader)⟩
  · rintro ⟨hc, hm, hset⟩
    refine (execTest_of_configured hc hm).trans ?_
    rw [List.all_eq_true.mpr hset]
    rfl

/-- One clear bit among the locations of a key, and TEST answers `FLAG = 0`. -/
theorem exec_test_of_clear {s : State} {key : List Sym} (hc : s.configured = true) (hm : mbits s ≠ 0) {b : Nat}
    (hb : b ∈ keyLocations s key) (hclear : bitTest s.mem b = false) :
    exec (.test key) s = .next { s with rsp := s.rsp ++ [0x03000000#32] } := by
  have hall : (keyLocations s key).all (bitTest s.mem) = false :=
    List.all_eq_false.mpr ⟨b, hb, Bool.eq_false_iff.mp hclear⟩
  refine (execTest_of_configured hc hm).trans ?_
  rw [hall]
  rfl

/-- Settles O30: the locations in closed form are those that TEST looks at. -/
theorem testAnswersTheConjunction : Obligations.TestAnswersTheConjunction := by
  intro key s hs hc
  have hm : mbits s ≠ 0 := hs.mbits_ne_zero hc
  constructor
  · intro hset
    refine (exec_test_flag_iff_reports s key).mpr ⟨hc, hm, fun b hb => ?_⟩
    obtain ⟨i, hi, rfl⟩ := (mem_keyLocations hm).mp hb
    exact hset i hi
  · rintro ⟨i, hi, hclear⟩
    exact exec_test_of_clear hc hm (closedLocation_mem_keyLocations hm hi) hclear

theorem bitTest_nil (b : Nat) : bitTest [] b = false := by
  rw [bitTest_eq, readWord_nil]
  exact BitVec.getLsbD_zero

/-- Settles O49: a key has at least one location, and no bit of a new filter is set. -/
theorem freshFilterContainsNoKey : Obligations.FreshFilterContainsNoKey := by
  intro s t n k key hn hnMax hk hkMax h
  obtain rfl := next_inj ((execInit_of_legal hn hnMax hk hkMax).symm.trans h)
  have hm : mbits (createFilter n k s) ≠ 0 := by
    rw [mbits, createFilter_nwords]
    omega
  exact exec_test_of_clear rfl hm (closedLocation_mem_keyLocations (i := 0) hm hk) (bitTest_nil _)

/-! ## ADD (R132) -/

/-- Setting bits leaves every byte outside their words as it was. -/
theorem read_bitSetAll_of_ne {m : List Host.Cell} (hm : Memory.wf m) {bs : List Nat} {a : Nat}
    (h : ∀ b ∈ bs, a / 4 ≠ bitWord b) : Memory.read (bitSetAll m bs) a = Memory.read m a := by
  rw [read_eq_wordByte, read_eq_wordByte, readWord_bitSetAll_of_ne hm fun b hb => (h b hb).symm]

theorem bitTest_bitSetAll_iff {m : List Host.Cell} (hm : Memory.wf m) (bs : List Nat) (c : Nat) :
    bitTest (bitSetAll m bs) c = true ↔ bitTest m c = true ∨ c ∈ bs := by
  rw [bitTest_bitSetAll hm, Bool.or_eq_true, decide_eq_true_eq]

/-- Settles O29: what ADD writes is the bits of the key's locations, set in a canonical array. -/
theorem addSetsTheKeysBits : Obligations.AddSetsTheKeysBits := by
  intro key s hs hc
  have hm : mbits s ≠ 0 := hs.mbits_ne_zero hc
  obtain ⟨-, -, hmem, -⟩ := hs
  refine ⟨_, execAdd_of_configured hc hm, rfl, fun b => ?_, fun a => read_bitSetAll_of_ne hmem⟩
  exact (bitTest_bitSetAll_iff hmem _ b).trans (or_congr_right (mem_keyLocations hm))

/-- Setting the bits of a key's locations keeps the invariant, however long the key is. -/
theorem State.Inv.set_keyLocations {s : State} (hs : s.Inv) (hm : mbits s ≠ 0) (key : List Sym) :
    State.Inv { s with mem := bitSetAll s.mem (keyLocations s key) } := by
  obtain ⟨hcfg, hregs, hmem, hinside⟩ := hs
  refine ⟨hcfg, hregs, wf_bitSetAll hmem _, fun c hc => ?_⟩
  obtain ⟨b, hb, hword⟩ | hold := mem_bitSetAll hc
  · have hlt : bitWord b < s.nwords.toNat := bitWord_lt (keyLocations_lt hm hb)
    show c.1 < 4 * s.nwords.toNat
    omega
  · exact hinside c hold

theorem inv_and_reports_of_exec_add {key : List Sym} {s t : State} (hs : s.Inv) (hc : s.configured = true)
    (h : exec (.add key) s = .next t) : t.Inv ∧ Reports t key := by
  have hm : mbits s ≠ 0 := hs.mbits_ne_zero hc
  obtain rfl := next_inj ((execAdd_of_configured hc hm).symm.trans h)
  have ⟨_, _, hmem, _⟩ := hs
  exact ⟨hs.set_keyLocations hm key, hc, hm, fun b hb => (bitTest_bitSetAll_iff hmem _ b).mpr (.inr hb)⟩

/-! ## No false negatives (R135 (b)) -/

theorem BitsKept.bitTest {m n : List Host.Cell} (h : BitsKept m n) {b : Nat} (hb : bitTest m b = true) :
    bitTest n b = true := by
  rw [bitTest_eq, ← h (b / 32), BitVec.getLsbD_and, Bool.and_eq_true] at hb
  rw [bitTest_eq]
  exact hb.2

/-- A key stays reported as long as the geometry stays and no bit is cleared. -/
theorem Reports.mono {s t : State} {key : List Sym} (h : Reports s key) (hg : SameGeometry s t)
    (hb : BitsKept s.mem t.mem) : Reports t key where
  configured := hg.configured.trans h.configured
  hasBits := hg.mbits ▸ h.hasBits
  allSet b hmem := hb.bitTest (h.allSet b (hg.keyLocations key ▸ hmem))

/-- Settles O50: ADD makes the engine report the key, and no command but INIT takes that away. -/
theorem noFalseNegatives : Obligations.NoFalseNegatives := by
  intro s t u key is hs hc hadd his hrun
  obtain ⟨ht, hreports⟩ := inv_and_reports_of_exec_add hs hc hadd
  have hgeometry : SameGeometry t u := execAll_sameGeometry (fun i hi => (his i hi).1) hrun
  have hbits : BitsKept t.mem u.mem := execAll_bitsKept ht his hrun
  exact (exec_test_flag_iff_reports u key).mpr (hreports.mono hgeometry hbits)

/-! ## MERGE and UNION (R136, R137) -/

theorem execMerge_of_hashes_ne {ok on : Word} {ow : List Word} {s : State} (hc : s.configured = true)
    (hk : ok ≠ s.nhash) : execMerge ok on ow s = .next (raiseError (opCode .merge) .incompatHashes s) := by
  rw [execMerge, whenConfigured_true hc, if_pos hk]

theorem execMerge_of_size_ne {ok on : Word} {ow : List Word} {s : State} (hc : s.configured = true)
    (hk : ok = s.nhash) (hn : on ≠ s.nwords) :
    execMerge ok on ow s = .next (raiseError (opCode .merge) .incompatSize s) := by
  rw [execMerge, whenConfigured_true hc, if_neg (not_not.mpr hk), if_pos hn]

/-- A merge leaves every byte beyond its words as it was. -/
theorem read_mergeOr_of_le {m : List Host.Cell} (hm : Memory.wf m) {ws : List Word} {a : Nat}
    (ha : 4 * ws.length ≤ a) : Memory.read (mergeOr m ws) a = Memory.read m a := by
  have hword : ¬ a / 4 < ws.length := by omega
  rw [read_eq_wordByte, read_eq_wordByte, readWord_mergeOr hm, if_neg hword]

/-- Settles O33: the operand has `NWORDS` words when the counts agree; else the first count that differs is answered. -/
theorem mergeOrsTheOperandWordByWord : Obligations.MergeOrsTheOperandWordByWord := by
  rintro ok on ow s ⟨-, -, hmem, -⟩ hc hlen
  refine ⟨?_, execMerge_of_hashes_ne hc, execMerge_of_size_ne hc⟩
  rintro hk rfl
  rw [← hlen]
  exact ⟨_, execMerge_of_fits hc hk rfl, rfl, readWord_mergeOr hmem ow, fun a => read_mergeOr_of_le hmem⟩

theorem arrayWords_length (s : State) : (arrayWords s).length = s.nwords.toNat := by
  rw [arrayWords, List.length_map, List.length_range]

theorem arrayWords_getD {s : State} {w : Nat} (hw : w < s.nwords.toNat) :
    (arrayWords s).getD w 0 = readWord s.mem w := by
  rw [arrayWords, List.getD_eq_getElem?_getD, List.getElem?_map, List.getElem?_range hw]
  rfl

/-- Merging the words of a filter keeps its bits: there are none beyond the words merged (R16). -/
theorem bitsKept_mergeOr_arrayWords {m : List Host.Cell} (hm : Memory.wf m) {o : State} (ho : ArrayLegal o) :
    BitsKept o.mem (mergeOr m (arrayWords o)) := by
  obtain ⟨-, hinside⟩ := ho
  intro w
  rw [readWord_mergeOr hm, arrayWords_length]
  by_cases hw : w < o.nwords.toNat
  · rw [if_pos hw, arrayWords_getD hw]
    ext j
    simp +contextual
  · rw [readWord_of_bound hinside (Nat.le_of_not_lt hw)]
    exact BitVec.zero_and

/-- UNION with a filter of the same geometry merges its words. -/
theorem execAll_unionMacro {s o : State} (hc : s.configured = true) (hn : s.nwords = o.nwords)
    (hk : s.nhash = o.nhash) :
    execAll (unionMacro o.nhash (arrayWords o)) s =
      .next (respond (opCode .merge) false [] { s with mem := mergeOr s.mem (arrayWords o) }) := by
  have hcount : BitVec.ofNat 32 (arrayWords o).length = s.nwords := by
    rw [arrayWords_length, BitVec.ofNat_toNat, BitVec.setWidth_eq, hn]
  exact execAll_cons (execMerge_of_fits hc hk.symm hcount)

/-- Settles O51: the bits of either array are kept in the merged one, which has the geometry of both. -/
theorem unionKeepsEveryKey : Obligations.UnionKeepsEveryKey := by
  rintro s o key ⟨-, -, hs, -⟩ ⟨-, -, ho⟩ hsc hoc hmix hsigned hn hk hreported
  refine ⟨_, execAll_unionMacro hsc hn hk, (exec_test_flag_iff_reports _ key).mpr ?_⟩
  rw [exec_test_flag_iff_reports, exec_test_flag_iff_reports] at hreported
  obtain hreceiver | hoperand := hreported
  · exact hreceiver.mono ⟨rfl, rfl, rfl, rfl, rfl⟩ (bitsKept_mergeOrFrom hs 0 _)
  · exact hoperand.mono ⟨hsc.trans hoc.symm, hn, hk, hmix, hsigned⟩ (bitsKept_mergeOr_arrayWords hs ho)

/-! ## RDR (R140, R13) -/

theorem exec_rdr_status (s : State) :
    exec (.rdr regStatus) s = .next (emit s [0x08000000#32, if s.configured then 1#32 else 0#32]) := by
  have hstatus : statusWord s = if s.configured then 1#32 else 0#32 := by
    rw [statusWord]
    cases s.configured <;> rfl
  rw [← hstatus]
  rfl

theorem exec_rdr_mbits (s : State) :
    exec (.rdr regMbits) s = .next (emit s [0x08000000#32, BitVec.ofNat 32 (mbits s)]) := rfl

theorem exec_rdr_of_four_le {reg : Byte} (h : 4 ≤ reg.toNat) (s : State) :
    exec (.rdr reg) s = .next (raiseError (opCode .rdr) .range s) := by
  obtain ⟨j, hj⟩ := Nat.exists_eq_add_of_le' h
  have hnone : readRegister reg s = none := by
    rw [readRegister, hj]
    rfl
  rw [exec, execRdr, hnone]

/-- `MBITS` fits a word, configured or not (R15, R5). -/
theorem State.Inv.mbits_lt {s : State} (hs : s.Inv) : mbits s < 2 ^ 32 := by
  obtain ⟨⟨-, hnMax, -⟩, ⟨hunconfigured, hconfigured⟩, -⟩ := hs
  rw [mbits]
  cases hc : s.configured with
  | false =>
    obtain ⟨hn, -⟩ := hunconfigured hc
    rw [hn]
    decide
  | true =>
    obtain ⟨-, hn, -⟩ := hconfigured hc
    omega

/-- Settles O35: one register number after the other; the `MBITS` word does not overflow. -/
theorem rdrAnswersTheRegister : Obligations.RdrAnswersTheRegister := by
  intro reg s hs
  refine ⟨fun h => ?_, fun h => ?_, fun h => ?_, fun h => ?_, fun h => exec_rdr_of_four_le h s⟩
  · obtain rfl : reg = regStatus := BitVec.eq_of_toNat_eq h
    exact exec_rdr_status s
  · obtain rfl : reg = regNwords := BitVec.eq_of_toNat_eq h
    exact exec_rdr_nwords s
  · obtain rfl : reg = regMbits := BitVec.eq_of_toNat_eq h
    exact ⟨_, (BitVec.toNat_ofNat _ _).trans (Nat.mod_eq_of_lt hs.mbits_lt), exec_rdr_mbits s⟩
  · obtain rfl : reg = regNhash := BitVec.eq_of_toNat_eq h
    exact exec_rdr_nhash s

end Sys2Proof.Machine
end

section
/-! PROOF. Family 44_host_procedures (R150 to R161): what a host is told and what is left in the engine, from the answer
to each command it sends; the record, whose text and bytes are read back as they were written; and the sizing formulas. -/

namespace Sys2Proof.Machine

/-! ## Commands sent and answered (R157) -/

theorem answeredError_respond (s : State) {u : State} (hu : u.rsp = s.rsp) (opc : Byte) (f : Bool) (ws : List Word) :
    answeredError s (respond opc f ws u) = some .ok := answeredError_emit s u opc .ok f ws hu

theorem answeredFlag_respond (s : State) {u : State} (hu : u.rsp = s.rsp) (opc : Byte) (f : Bool) (ws : List Word) :
    answeredFlag s (respond opc f ws u) = some f := answeredFlag_emit s u opc .ok f ws hu

theorem answeredWords_respond (s : State) {u : State} (hu : u.rsp = s.rsp) (opc : Byte) (f : Bool) (ws : List Word) :
    answeredWords s (respond opc f ws u) = ws := answeredWords_emit s u _ ws hu

/-- After the last command the host reports what it was told so far. -/
theorem runPlan_send_nil (report : ErrorCode → Report) (s : State) :
    runPlan report (.send []) s = some (report .ok, s) := rfl

/-- A command that succeeds lets the host send the rest. -/
theorem runPlan_send_respond (report : ErrorCode → Report) {i : Instr} (is : List Instr) {s u : State} {opc : Byte}
    {f : Bool} {ws : List Word} (h : exec i s = .next (respond opc f ws u)) (hu : u.rsp = s.rsp) :
    runPlan report (.send (i :: is)) s = runPlan report (.send is) (respond opc f ws u) := by
  rw [runPlan_send, sendAll_ok h (answeredError_respond s hu opc f ws), runPlan_send]

/-- A command that fails is reported, and the rest is not sent. -/
theorem runPlan_send_raiseError (report : ErrorCode → Report) {i : Instr} (is : List Instr) {s : State} {opc : Byte}
    {e : ErrorCode} (h : exec i s = .next (raiseError opc e s)) (he : e ≠ .ok) :
    runPlan report (.send (i :: is)) s = some (report e, raiseError opc e s) := by
  rw [runPlan_send, sendAll_error h (answeredError_emit s s opc e false [] rfl) he]
  rfl

/-- The result words of a command that succeeds come before those of the rest. -/
theorem converse_respond {i : Instr} (is : List Instr) {s u : State} {opc : Byte} {f : Bool} {ws : List Word}
    (h : exec i s = .next (respond opc f ws u)) (hu : u.rsp = s.rsp) :
    converse (i :: is) s = (converse is (respond opc f ws u)).map fun r => (r.1, ws ++ r.2.1, r.2.2) := by
  rw [converse_ok h (answeredError_respond s hu opc f ws), answeredWords_respond s hu]

/-! ## Loading words (R160) -/

/-- The state after `LOAD k, ws` in engine `r`. -/
def loaded (k : Word) (ws : List Word) (r : State) : State :=
  { r with
    configured := true, nwords := BitVec.ofNat 32 ws.length, nhash := k, mem := mergeOr zeroFill ws,
    rsp := r.rsp ++ [0x01000000#32, 0x06000000#32] }

/-- The engine `r` can hold a filter of the hash count `k` and the words `ws`. -/
structure Fits (k : Word) (ws : List Word) (r : State) : Prop where
  words : 1 ≤ ws.length
  wordsMax : ws.length ≤ r.cfg.nMax
  wordsField : ws.length < 2 ^ 32
  hashes : 1 ≤ k.toNat
  hashesMax : k.toNat ≤ r.cfg.kMax

theorem toNat_ofNat_of_lt {n : Nat} (h : n < 2 ^ 32) : (BitVec.ofNat 32 n).toNat = n := by
  rw [BitVec.toNat_ofNat, Nat.mod_eq_of_lt h]

/-- The INIT of LOAD creates the filter. -/
theorem Fits.exec_init {k : Word} {ws : List Word} {r : State} (h : Fits k ws r) :
    exec (.init (BitVec.ofNat 32 ws.length) k) r =
      .next (respond (opCode .init) false [] (createFilter (BitVec.ofNat 32 ws.length) k r)) := by
  have hcount := toNat_ofNat_of_lt h.wordsField
  exact execInit_of_legal (hcount.symm ▸ h.words) (hcount.symm ▸ h.wordsMax) h.hashes h.hashesMax

/-- The answer of the MERGE of LOAD, in the state that its INIT has left. -/
theorem loaded_eq_respond (k : Word) (ws : List Word) (r : State) :
    loaded k ws r = respond (opCode .merge) false []
      { respond (opCode .init) false [] (createFilter (BitVec.ofNat 32 ws.length) k r) with
        mem := mergeOr zeroFill ws } := by
  rw [loaded, respond, emit]
  simp only [respond_rsp, createFilter_rsp, List.append_assoc]
  rfl

theorem Fits.execAll_loadMacro {k : Word} {ws : List Word} {r : State} (h : Fits k ws r) :
    execAll (loadMacro k ws) r = .next (loaded k ws r) := by
  rw [loadMacro, execAll_cons h.exec_init, loaded_eq_respond]
  exact execAll_cons (execMerge_of_fits rfl rfl rfl)

/-- A host that sends LOAD of a filter that fits is told success. -/
theorem Fits.runPlan_loadMacro {k : Word} {ws : List Word} {r : State} (h : Fits k ws r)
    (report : ErrorCode → Report) :
    runPlan report (.send (loadMacro k ws)) r = some (report .ok, loaded k ws r) := by
  rw [loadMacro, runPlan_send_respond report _ h.exec_init rfl, loaded_eq_respond]
  exact runPlan_send_respond report (i := .merge _ _ _) [] (execMerge_of_fits rfl rfl rfl) rfl

theorem readWord_mergeOr_zeroFill (ws : List Word) (j : Nat) :
    readWord (mergeOr zeroFill ws) j = if j < ws.length then ws.getD j 0 else 0 := by
  rw [zeroFill, readWord_mergeOr Memory.wf_nil, readWord_nil]
  exact if_congr Iff.rfl BitVec.zero_or rfl

/-- The array of a filter is what its words make of an empty array: nothing is listed beyond them (R16). -/
theorem mergeOr_arrayWords {s : State} (hs : ArrayLegal s) : mergeOr zeroFill (arrayWords s) = s.mem := by
  obtain ⟨hwf, hinside⟩ := hs
  refine array_ext (wf_mergeOr Memory.wf_nil _) hwf fun j => ?_
  rw [readWord_mergeOr_zeroFill, arrayWords_length]
  by_cases hj : j < s.nwords.toNat
  · rw [if_pos hj, arrayWords_getD hj]
  · rw [if_neg hj, readWord_of_bound hinside (Nat.le_of_not_lt hj)]

theorem ofNat_arrayWords_length (s : State) : BitVec.ofNat 32 (arrayWords s).length = s.nwords := by
  rw [arrayWords_length, BitVec.ofNat_toNat, BitVec.setWidth_eq]

theorem arrayWords_length_lt (s : State) : (arrayWords s).length < 2 ^ 32 :=
  (arrayWords_length s).symm ▸ s.nwords.isLt

/-- Loading the words of a filter gives the filter. -/
theorem loaded_arrayWords {s : State} (hs : ArrayLegal s) (r : State) :
    loaded s.nhash (arrayWords s) r = { r with
      configured := true, nwords := s.nwords, nhash := s.nhash, mem := s.mem,
      rsp := r.rsp ++ [0x01000000#32, 0x06000000#32] } := by
  rw [loaded, ofNat_arrayWords_length, mergeOr_arrayWords hs]

theorem State.Inv.fits {s : State} (hs : s.Inv) (hc : s.configured = true) {r : State}
    (hn : s.nwords.toNat ≤ r.cfg.nMax) (hk : s.nhash.toNat ≤ r.cfg.kMax) : Fits s.nhash (arrayWords s) r := by
  obtain ⟨-, ⟨-, hregs⟩, -⟩ := hs
  obtain ⟨hwords, -, hhashes, -⟩ := hregs hc
  have hlength := arrayWords_length s
  exact ⟨hlength.symm ▸ hwords, hlength.symm ▸ hn, arrayWords_length_lt s, hhashes, hk⟩

/-- Settles O53: INIT and MERGE succeed, and the words make the array. -/
theorem loadRestoresTheSavedFilter : Obligations.LoadRestoresTheSavedFilter := by
  intro s r hs hc hn hk
  have ⟨_, _, harray⟩ := hs
  rw [(hs.fits hc hn hk).execAll_loadMacro, loaded_arrayWords harray]

/-! ## The record (R158, R159) -/

theorem byte_eq_of_mod {n : Nat} {b : Byte} (h : n % 2 ^ 8 = b.toNat) : BitVec.ofNat 8 n = b :=
  BitVec.eq_of_toNat_eq ((BitVec.toNat_ofNat n 8).trans h)

/-- Four digits are the three bytes of 24 bits. -/
theorem base64Group_digits (a b c : Byte) :
    base64Group (base64Digit (a.toNat / 4)) (base64Digit (a.toNat % 4 * 16 + b.toNat / 16))
      (base64Digit (b.toNat % 16 * 4 + c.toNat / 64)) (base64Digit (c.toNat % 64)) = some [a, b, c] := by
  have ha := a.isLt; have hb := b.isLt; have hc := c.isLt
  rw [base64Group, base64Value_base64Digit (by omega), base64Value_base64Digit (by omega),
    base64Value_base64Digit (by omega), base64Value_base64Digit (by omega)]
  simp only [Option.some.injEq, List.cons.injEq, and_true]
  refine ⟨byte_eq_of_mod ?_, byte_eq_of_mod ?_, byte_eq_of_mod ?_⟩ <;> omega

theorem base64Group_digits_two (a b : Byte) :
    base64Group (base64Digit (a.toNat / 4)) (base64Digit (a.toNat % 4 * 16 + b.toNat / 16))
      (base64Digit (b.toNat % 16 * 4)) '=' = some [a, b] := by
  have ha := a.isLt; have hb := b.isLt
  rw [base64Group, base64Value_base64Digit (by omega), base64Value_base64Digit (by omega),
    base64Value_base64Digit (by omega), base64Value_padding]
  simp only [if_true, Option.some.injEq, List.cons.injEq, and_true]
  refine ⟨byte_eq_of_mod ?_, byte_eq_of_mod ?_⟩ <;> omega

theorem base64Group_digits_one (a : Byte) :
    base64Group (base64Digit (a.toNat / 4)) (base64Digit (a.toNat % 4 * 16)) '=' '=' = some [a] := by
  have ha := a.isLt
  rw [base64Group, base64Value_base64Digit (by omega), base64Value_base64Digit (by omega), base64Value_padding]
  simp only [and_self, if_true, Option.some.injEq, List.cons.injEq, and_true]
  refine byte_eq_of_mod ?_
  omega

/-- A group of three bytes comes before the bytes of the rest of the text. -/
theorem base64Decode_group {c0 c1 c2 c3 : Char} {x y z : Byte} (h : base64Group c0 c1 c2 c3 = some [x, y, z])
    (rest : List Char) :
    base64Decode (c0 :: c1 :: c2 :: c3 :: rest) = (base64Decode rest).map fun bytes => x :: y :: z :: bytes := by
  cases rest with
  | nil => exact h
  | cons c rest =>
    rw [base64Decode, h]
    · cases base64Decode (c :: rest) <;> rfl
    · simp

theorem base64Decode_base64Encode : ∀ bytes, base64Decode (base64Encode bytes) = some bytes
  | [] => rfl
  | [a] => base64Group_digits_one a
  | [a, b] => base64Group_digits_two a b
  | a :: b :: c :: rest => by
    rw [base64Encode, base64Decode_group (base64Group_digits a b c), base64Decode_base64Encode rest, Option.map_some]

/-- A group has at least one byte, with or without padding. -/
theorem base64Group_ne_nil (c0 c1 c2 c3 : Char) : base64Group c0 c1 c2 c3 ≠ some [] := by
  unfold base64Group
  split
  · split
    · simp
    · split <;> simp
    · split <;> simp
  · simp

/-- Only the empty text has no bytes. -/
theorem eq_nil_of_base64Decode {text : List Char} (h : base64Decode text = some []) : text = [] := by
  unfold base64Decode at h
  split at h
  · rfl
  · exact absurd h (base64Group_ne_nil _ _ _ _)
  · split at h
    · nomatch h
    · nomatch h
  · nomatch h

theorem wordsOfBytes_serialBytes (ws : List Word) : wordsOfBytes (serialBytes ws) = some ws := by
  induction ws with
  | nil => rfl
  | cons w ws ih =>
    have hcons : serialBytes (w :: ws) =
      wordByte w 0 :: wordByte w 1 :: wordByte w 2 :: wordByte w 3 :: serialBytes ws := rfl
    rw [hcons, wordsOfBytes, ih, Option.map_some, wordOfBytes_wordByte]

/-- A record whose text is that of `ws` and whose counts fit 32 bits has the contents `ws`. -/
theorem recordContents_of_serialBytes {r : Record} {ws : List Word}
    (hb : base64Decode r.buckets = some (serialBytes ws)) (hk : r.numHashes < 2 ^ 32) (hn : ws.length < 2 ^ 32) :
    recordContents r = some (BitVec.ofNat 32 r.numHashes, ws) := by
  rw [recordContents, hb, Option.bind_some, wordsOfBytes_serialBytes]
  exact if_pos ⟨hk, hn⟩

theorem recordContents_of_undecodable {r : Record} (hb : base64Decode r.buckets = none) :
    recordContents r = none := by
  rw [recordContents, hb]
  rfl

theorem recordContents_of_partial {r : Record} {bytes : List Byte} (hb : base64Decode r.buckets = some bytes)
    (hlength : bytes.length % 4 ≠ 0) : recordContents r = none := by
  rw [recordContents, hb, Option.bind_some, wordsOfBytes_of_partial hlength]

/-- The contents of a saved record are what was saved. -/
theorem recordContents_saveRecord (k : Word) {ws : List Word} (hn : ws.length < 2 ^ 32) :
    recordContents (saveRecord k ws) = some (k, ws) := by
  rw [recordContents_of_serialBytes (base64Decode_base64Encode _) k.isLt hn, saveRecord, BitVec.ofNat_toNat,
    BitVec.setWidth_eq]

theorem recordPlan_of_contents {plan : Word → List Word → HostPlan} {r : Record} {k : Word} {ws : List Word}
    (h : recordContents r = some (k, ws)) : recordPlan plan r = plan k ws := by
  rw [recordPlan, h]

theorem recordPlan_of_none {plan : Word → List Word → HostPlan} {r : Record} (h : recordContents r = none) :
    recordPlan plan r = .raise .serializationError := by
  rw [recordPlan, h]

/-- A bad record is a SerializationError for every procedure, and nothing is sent (R161). -/
theorem runPlan_recordPlan_of_none {plan : Word → List Word → HostPlan} {r : Record} (h : recordContents r = none)
    (report : ErrorCode → Report) (s : State) :
    runPlan report (recordPlan plan r) s = some (.error .serializationError, s) := by
  rw [recordPlan_of_none h, runPlan_raise]

/-- Settles O54: the text of the saved words gives them back. -/
theorem savedRecordLoadsTheSameWords : Obligations.SavedRecordLoadsTheSameWords :=
  fun s => recordPlan_of_contents (recordContents_saveRecord s.nhash (arrayWords_length_lt s))

/-! ## Creation (R150 to R153) -/

theorem Sizing.unique {round : ℝ → Int} {capacity : Int} {errorRate : ℝ}
    {numBits numHashes n numBits' numHashes' n' : Int}
    (h : Sizing round capacity errorRate numBits numHashes n)
    (h' : Sizing round capacity errorRate numBits' numHashes' n') : numHashes' = numHashes ∧ n' = n := by
  obtain ⟨rfl, rfl, rfl⟩ := h
  obtain ⟨rfl, rfl, rfl⟩ := h'
  exact ⟨rfl, rfl⟩

/-- The formula for the number of bits is positive: the logarithm of the error rate is negative. -/
theorem numBits_formula_pos {capacity : Int} {errorRate : ℝ} (h : CreateLegal capacity errorRate) :
    0 < -(capacity : ℝ) * Real.log errorRate / Real.log 2 ^ 2 := by
  obtain ⟨hcapacity, hpos, hone⟩ := h
  have hc : -(capacity : ℝ) < 0 := neg_neg_of_pos (Int.cast_pos.mpr hcapacity)
  have hlog : Real.log errorRate < 0 := Real.log_neg hpos hone
  have htwo : 0 < Real.log 2 := Real.log_pos one_lt_two
  exact div_pos (mul_pos_of_neg_of_neg hc hlog) (pow_pos htwo 2)

/-- The word count is the least whose bits reach `numBits`. -/
theorem wordCount_bounds (numBits : Int) :
    numBits ≤ 32 * ⌈(numBits : ℝ) / 32⌉ ∧ 32 * ⌈(numBits : ℝ) / 32⌉ < numBits + 32 := by
  have hge : (numBits : ℝ) / 32 ≤ ⌈(numBits : ℝ) / 32⌉ := Int.le_ceil _
  have hlt : (⌈(numBits : ℝ) / 32⌉ : ℝ) < (numBits : ℝ) / 32 + 1 := Int.ceil_lt_add_one _
  constructor
  · have : (numBits : ℝ) ≤ 32 * ⌈(numBits : ℝ) / 32⌉ := by linarith
    exact_mod_cast this
  · have : (32 * ⌈(numBits : ℝ) / 32⌉ : ℝ) < numBits + 32 := by linarith
    exact_mod_cast this

/-- Settles O55: positive reals have positive ceilings, and the number of hashes is at least 1 whatever `round` is. -/
theorem sizingGivesNoZeroOperand : Obligations.SizingGivesNoZeroOperand := by
  rintro round capacity errorRate numBits numHashes n hlegal ⟨hbits, rfl, rfl⟩
  have hpos : 1 ≤ numBits := hbits ▸ Int.ceil_pos.mpr (numBits_formula_pos hlegal)
  obtain ⟨hge, hlt⟩ := wordCount_bounds numBits
  exact ⟨hpos, le_max_left _ _, by omega, hge, hlt⟩

/-- An operand that a 32-bit field holds is sent as it is. -/
theorem toNat_ofInt_of_lt {i : Int} (h0 : 0 ≤ i) (h : i < 2 ^ 32) : ((BitVec.ofInt 32 i).toNat : Int) = i := by
  rw [BitVec.toNat_ofInt]
  omega

theorem createPlan_of_lt {n numHashes : Int} (hn0 : 0 ≤ n) (hn : n < 2 ^ 32) (hk0 : 0 ≤ numHashes)
    (hk : numHashes < 2 ^ 32) :
    createPlan n numHashes = .send [.init (BitVec.ofInt 32 n) (BitVec.ofInt 32 numHashes)] :=
  if_pos ⟨hn0, hn, hk0, hk⟩

/-- A filter that fits the engine is created empty. -/
theorem runPlan_createPlan_of_fits {n numHashes : Int} {s : State} (hs : s.cfg.Legal) (hn : 1 ≤ n)
    (hnMax : n ≤ s.cfg.nMax) (hk : 1 ≤ numHashes) (hkMax : numHashes ≤ s.cfg.kMax) :
    ∃ t, runPlan reportOf (createPlan n numHashes) s = some (.done, t) ∧
      t = { s with configured := true, nwords := t.nwords, nhash := t.nhash, mem := t.mem,
                   rsp := s.rsp ++ [0x01000000#32] } ∧
      t.nwords.toNat = n ∧ t.nhash.toNat = numHashes ∧ ∀ w, w < n.toNat → readWord t.mem w = 0 := by
  obtain ⟨-, hnLegal, -, hkLegal⟩ := hs
  have hwords := toNat_ofInt_of_lt (i := n) (by omega) (by omega)
  have hhashes := toNat_ofInt_of_lt (i := numHashes) (by omega) (by omega)
  have hinit := execInit_of_legal (n := BitVec.ofInt 32 n) (k := BitVec.ofInt 32 numHashes) (s := s)
    (by omega) (by omega) (by omega) (by omega)
  rw [createPlan_of_lt (by omega) (by omega) (by omega) (by omega)]
  exact ⟨_, runPlan_send_respond reportOf (i := .init _ _) [] hinit rfl, rfl, hwords, hhashes,
    fun w _ => readWord_nil w⟩

/-- A filter that does not fit is InvalidArgument: from the engine when the operands fit their fields, else from the
host. -/
theorem runPlan_createPlan_of_too_large {n numHashes : Int} {s : State} (hn : 1 ≤ n) (hk : 1 ≤ numHashes)
    (h : (s.cfg.nMax : Int) < n ∨ (s.cfg.kMax : Int) < numHashes) :
    runPlan reportOf (createPlan n numHashes) s = some (.error .invalidArgument, { s with
      rsp := s.rsp ++ (if n < 2 ^ 32 ∧ numHashes < 2 ^ 32 then [0x01010000#32] else []) }) := by
  by_cases hfield : n < 2 ^ 32 ∧ numHashes < 2 ^ 32
  · obtain ⟨hn32, hk32⟩ := hfield
    have hwords := toNat_ofInt_of_lt (i := n) (by omega) hn32
    have hhashes := toNat_ofInt_of_lt (i := numHashes) (by omega) hk32
    have hinit := execInit_of_illegal (n := BitVec.ofInt 32 n) (k := BitVec.ofInt 32 numHashes) (s := s) (by omega)
    rw [createPlan_of_lt (by omega) hn32 (by omega) hk32, if_pos ⟨hn32, hk32⟩]
    exact runPlan_send_raiseError reportOf (i := .init _ _) [] hinit (by decide)
  · have hplan : createPlan n numHashes = .raise .invalidArgument :=
      if_neg fun ⟨_, hn32, _, hk32⟩ => hfield ⟨hn32, hk32⟩
    rw [hplan, if_neg hfield, List.append_nil, runPlan_raise]

theorem createEmpty_of_illegal {round : ℝ → Int} {capacity : Int} {errorRate : ℝ}
    (h : ¬ CreateLegal capacity errorRate) (q : HostPlan) :
    CreateEmpty round capacity errorRate q ↔ q = .raise .invalidArgument := by
  simp [CreateEmpty, h]

theorem createEmpty_of_sizing {round : ℝ → Int} {capacity : Int} {errorRate : ℝ} {numBits numHashes n : Int}
    (h : CreateLegal capacity errorRate) (hsizes : Sizing round capacity errorRate numBits numHashes n)
    (q : HostPlan) : CreateEmpty round capacity errorRate q ↔ q = createPlan n numHashes := by
  constructor
  · rintro (⟨hillegal, -⟩ | ⟨-, numBits', numHashes', n', hsizes', rfl⟩)
    · exact absurd h hillegal
    · obtain ⟨rfl, rfl⟩ := hsizes.unique hsizes'
      rfl
  · rintro rfl
    exact .inr ⟨h, numBits, numHashes, n, hsizes, rfl⟩

/-- Settles O56: the formulas give one size for each argument, and the engine's answer to INIT decides the report. -/
theorem createEmptyReportsToItsCaller : Obligations.CreateEmptyReportsToItsCaller := by
  intro round capacity errorRate s hs
  by_cases hlegal : CreateLegal capacity errorRate
  · obtain ⟨numBits, numHashes, n, hsizes⟩ :
        ∃ numBits numHashes n, Sizing round capacity errorRate numBits numHashes n := ⟨_, _, _, rfl, rfl, rfl⟩
    obtain ⟨-, hk, hn, -⟩ := sizingGivesNoZeroOperand _ _ _ _ _ _ hlegal hsizes
    refine ⟨_, createEmpty_of_sizing hlegal hsizes, fun hillegal => absurd hlegal hillegal, ?_⟩
    intro numBits' numHashes' n' _ hsizes'
    obtain ⟨rfl, rfl⟩ := hsizes.unique hsizes'
    exact ⟨fun hnMax hkMax => runPlan_createPlan_of_fits hs hn hnMax hk hkMax,
      runPlan_createPlan_of_too_large hn hk⟩
  · exact ⟨_, createEmpty_of_illegal hlegal, fun _ => runPlan_raise _ _ _,
      fun _ _ _ hlegal' => absurd hlegal' hlegal⟩

/-! ## Load (R160, R161) -/

theorem loadReport_ok (r : Record) : loadReport r .ok = .done := rfl

theorem loadReport_invalidArg_of_empty {r : Record} (h : r.numHashes = 0 ∨ r.buckets = []) :
    loadReport r .invalidArg = .error .serializationError := if_pos ⟨rfl, h⟩

theorem loadReport_invalidArg_of_nonempty {r : Record} (hk : r.numHashes ≠ 0) (hb : r.buckets ≠ []) :
    loadReport r .invalidArg = .error .invalidArgument := if_neg fun ⟨_, h⟩ => h.elim hk hb

/-- A record has no text exactly when it has no words. -/
theorem buckets_eq_nil_iff {r : Record} {ws : List Word} (hb : base64Decode r.buckets = some (serialBytes ws)) :
    r.buckets = [] ↔ ws = [] := by
  constructor
  · intro hempty
    rw [hempty, base64Decode] at hb
    have hwords : wordsOfBytes [] = some ws := (Option.some.inj hb).symm ▸ wordsOfBytes_serialBytes ws
    exact (Option.some.inj hwords).symm
  · rintro rfl
    exact eq_nil_of_base64Decode hb

theorem load_of_contents {r : Record} {k : Word} {ws : List Word} (h : recordContents r = some (k, ws)) (s : State) :
    load r s = runPlan (loadReport r) (.send (loadMacro k ws)) s := by
  rw [load, loadRecord, recordPlan_of_contents h]

/-- A filter that INIT refuses is reported and not merged. -/
theorem runPlan_loadMacro_of_refused {k : Word} {ws : List Word} {s : State} (report : ErrorCode → Report)
    (hn : ws.length < 2 ^ 32)
    (h : ws.length = 0 ∨ s.cfg.nMax < ws.length ∨ k.toNat = 0 ∨ s.cfg.kMax < k.toNat) :
    runPlan report (.send (loadMacro k ws)) s =
      some (report .invalidArg, { s with rsp := s.rsp ++ [0x01010000#32] }) := by
  have hinit : execInit (BitVec.ofNat 32 ws.length) k s = .next (raiseError (opCode .init) .invalidArg s) :=
    execInit_of_illegal (by rwa [toNat_ofNat_of_lt hn])
  rw [loadMacro, runPlan_send_raiseError report (i := .init _ _) _ hinit (by decide)]
  rfl

theorem arrayWords_loaded {ws : List Word} (hn : ws.length < 2 ^ 32) (k : Word) (r : State) :
    arrayWords (loaded k ws r) = ws := by
  have hcount : (loaded k ws r).nwords.toNat = ws.length := toNat_ofNat_of_lt hn
  refine List.ext_getElem ((arrayWords_length _).trans hcount) fun j hj hlt => ?_
  rw [← List.getD_eq_getElem _ 0 hj, arrayWords_getD (hcount.symm ▸ hlt)]
  refine (readWord_mergeOr_zeroFill ws j).trans ?_
  rw [if_pos hlt, List.getD_eq_getElem _ _ hlt]

/-- Settles O57: a bad record is not sent, and of a good one INIT's answer decides. -/
theorem loadReportsToItsCaller : Obligations.LoadReportsToItsCaller := by
  intro r s _
  refine ⟨fun hb => runPlan_recordPlan_of_none (recordContents_of_undecodable hb) _ s,
    fun bytes hb hlength => runPlan_recordPlan_of_none (recordContents_of_partial hb hlength) _ s, ?_⟩
  intro ws hb hk hn
  have hkNat := toNat_ofNat_of_lt hk
  have hempty := buckets_eq_nil_iff hb
  rw [load_of_contents (recordContents_of_serialBytes hb hk hn)]
  refine ⟨fun h => ?_, fun hk0 hws hlarge => ?_, fun hk0 hws hnMax hkMax => ?_⟩
  · rw [runPlan_loadMacro_of_refused _ hn, loadReport_invalidArg_of_empty (h.imp_right hempty.mpr)]
    rw [hkNat, List.length_eq_zero_iff]
    tauto
  · rw [runPlan_loadMacro_of_refused _ hn, loadReport_invalidArg_of_nonempty hk0 (mt hempty.mp hws)]
    rw [hkNat]
    tauto
  · have hfits : Fits (BitVec.ofNat 32 r.numHashes) ws s :=
      ⟨List.length_pos_iff.mpr hws, hnMax, hn, hkNat.symm ▸ Nat.pos_of_ne_zero hk0, hkNat.symm ▸ hkMax⟩
    exact ⟨_, hfits.runPlan_loadMacro _, rfl, toNat_ofNat_of_lt hn, hkNat, arrayWords_loaded hn _ s⟩

/-! ## Reading a filter (R156, R158) -/

/-- The answers to RDW of words of the array, and the words a host takes from them. -/
theorem converse_rdw {s : State} (hc : s.configured = true) {js : List Nat} (hjs : ∀ j ∈ js, j < s.nwords.toNat) :
    converse (js.map fun j => .rdw (BitVec.ofNat 32 j)) s =
      some (.ok, js.map (readWord s.mem),
        emit s ((js.map (readWord s.mem)).flatMap fun w => [0x07000000#32, w])) := by
  induction js generalizing s with
  | nil => simp [emit]
  | cons j js ih =>
    obtain ⟨hj, hjs'⟩ := List.forall_mem_cons.mp hjs
    have hfirst : exec (.rdw (BitVec.ofNat 32 j)) s = .next (respond (opCode .rdw) false [readWord s.mem j] s) :=
      exec_rdw_of_lt hc hj
    have hrest := ih (s := respond (opCode .rdw) false [readWord s.mem j] s) hc hjs'
    rw [List.map_cons, converse_respond _ hfirst rfl, hrest, respond, emit_emit]
    rfl

/-- The answers to the two register reads, and what a host takes from them. -/
theorem converse_registers (s : State) :
    converse [.rdr regNhash, .rdr regNwords] s =
      some (.ok, [s.nhash, s.nwords], emit s [0x08000000#32, s.nhash, 0x08000000#32, s.nwords]) := by
  have hnhash : exec (.rdr regNhash) s = .next (respond (opCode .rdr) false [s.nhash] s) := exec_rdr_nhash s
  have hnwords (u : State) : exec (.rdr regNwords) u = .next (respond (opCode .rdr) false [u.nwords] u) :=
    exec_rdr_nwords u
  rw [converse_respond _ hnhash rfl, converse_respond _ (hnwords _) rfl, respond, respond, emit_emit]
  rfl

/-- Reading a filter gives its hash count and words, and only adds the answers. -/
theorem readFilter_of_configured {s : State} (hc : s.configured = true) :
    readFilter s = some (.done, some (s.nhash, arrayWords s), { s with rsp := s.rsp ++ filterAnswers s }) := by
  have hwords := converse_rdw (s := emit s [0x08000000#32, s.nhash, 0x08000000#32, s.nwords]) hc
    (js := List.range s.nwords.toNat) fun _ => List.mem_range.mp
  rw [emit_emit] at hwords
  rw [readFilter, converse_registers]
  simp only [readAllWords, hwords]
  rfl

/-! ## Union (R156) -/

theorem union_of_lt {k : Word} {ws : List Word} (hn : ws.length < 2 ^ 32) (s : State) :
    union k ws s = runPlan reportOf (.send [.merge k (BitVec.ofNat 32 ws.length) ws]) s := by
  rw [union, unionPlan, if_pos hn, unionMacro]

theorem union_of_le {k : Word} {ws : List Word} (hn : 2 ^ 32 ≤ ws.length) (s : State) :
    union k ws s = some (.error .incompatibleFilter, s) := by
  rw [union, unionPlan, if_neg hn.not_gt, runPlan_raise]

theorem union_of_hashes_ne {k : Word} {ws : List Word} {s : State} (hc : s.configured = true)
    (hn : ws.length < 2 ^ 32) (hk : k ≠ s.nhash) :
    union k ws s = some (.error .incompatibleFilter, { s with rsp := s.rsp ++ [0x06020000#32] }) := by
  rw [union_of_lt hn]
  exact runPlan_send_raiseError reportOf (i := .merge _ _ _) [] (execMerge_of_hashes_ne hc hk) (by decide)

theorem union_of_size_ne {k : Word} {ws : List Word} {s : State} (hc : s.configured = true)
    (hn : ws.length < 2 ^ 32) (hk : k = s.nhash) (hsize : ws.length ≠ s.nwords.toNat) :
    union k ws s = some (.error .incompatibleFilter, { s with rsp := s.rsp ++ [0x06030000#32] }) := by
  have hcount : BitVec.ofNat 32 ws.length ≠ s.nwords := fun h => hsize (h ▸ (toNat_ofNat_of_lt hn).symm)
  rw [union_of_lt hn]
  exact runPlan_send_raiseError reportOf (i := .merge _ _ _) [] (execMerge_of_size_ne hc hk hcount) (by decide)

theorem union_of_fits {k : Word} {ws : List Word} {s : State} (hc : s.configured = true) (hk : k = s.nhash)
    (hsize : ws.length = s.nwords.toNat) :
    union k ws s = some (.done, respond (opCode .merge) false [] { s with mem := mergeOr s.mem ws }) := by
  have hcount : BitVec.ofNat 32 ws.length = s.nwords := by rw [hsize, BitVec.ofNat_toNat, BitVec.setWidth_eq]
  rw [union_of_lt (hsize ▸ s.nwords.isLt)]
  exact runPlan_send_respond reportOf (i := .merge _ _ _) [] (execMerge_of_fits hc hk hcount) rfl

/-- Settles O58: the answer to MERGE decides, whether the words come from the caller, an engine or a record. -/
theorem unionReportsToItsCaller : Obligations.UnionReportsToItsCaller := by
  refine ⟨?_, ?_, ?_⟩
  · rintro k ws s ⟨-, -, hmem, -⟩ hc
    refine ⟨fun hn => union_of_le hn s, union_of_hashes_ne hc, union_of_size_ne hc, fun hk hsize => ?_⟩
    refine ⟨_, union_of_fits hc hk hsize, rfl, fun w hw => ?_⟩
    exact (readWord_mergeOr hmem ws w).trans (if_pos hw)
  · intro other s hc
    rw [unionEngine, readFilter_of_configured hc]
  · intro r s
    refine ⟨fun hb => runPlan_recordPlan_of_none (recordContents_of_undecodable hb) _ s,
      fun bytes hb hlength => runPlan_recordPlan_of_none (recordContents_of_partial hb hlength) _ s, ?_⟩
    intro ws hb hk hn
    refine ⟨BitVec.ofNat 32 r.numHashes, toNat_ofNat_of_lt hk, ?_⟩
    rw [unionRecord, recordPlan_of_contents (recordContents_of_serialBytes hb hk hn), union]

/-! ## Add and test (R154, R155) -/

theorem keyPlan_of_lt {key : List Sym} (h : 65535 < key.length) (command : List Sym → Instr) :
    keyPlan command key = .reject := by
  rw [keyPlan, keySendable, keyLenMax, decide_eq_false h.not_ge]
  rfl

theorem keyPlan_of_le {key : List Sym} (h : key.length ≤ 65535) (command : List Sym → Instr) :
    keyPlan command key = .send [command key] := by
  rw [keyPlan, keySendable, keyLenMax, decide_eq_true h]
  rfl

section
variable {encoding : String → List Sym} {key : String} {s : State}

theorem addKey_of_configured (hlength : (encoding key).length ≤ 65535) (hc : s.configured = true)
    (hm : mbits s ≠ 0) :
    addKey encoding key s = some (.done, respond (opCode .add) false []
      { s with mem := bitSetAll s.mem (keyLocations s (encoding key)) }) := by
  rw [addKey, keyPlan_of_le hlength]
  exact runPlan_send_respond reportOf (i := .add _) [] (execAdd_of_configured hc hm) rfl

/-- The Boolean of `test` is the conjunction that TEST answers as `FLAG`. -/
theorem testKey_of_configured (hlength : (encoding key).length ≤ 65535) (hc : s.configured = true)
    (hm : mbits s ≠ 0) :
    testKey encoding key s = some (.done, some ((keyLocations s (encoding key)).all (bitTest s.mem)),
      respond (opCode .test) ((keyLocations s (encoding key)).all (bitTest s.mem)) [] s) := by
  rw [testKey, keyPlan_of_le hlength,
    runPlan_send_respond reportOf (i := .test _) [] (execTest_of_configured hc hm) rfl, runPlan_send_nil,
    Option.map_some, answeredFlag_respond s rfl]
  rfl

theorem addKey_of_unconfigured (hlength : (encoding key).length ≤ 65535) (hc : s.configured = false) :
    addKey encoding key s = some (.engine .notConfigured, { s with rsp := s.rsp ++ [0x02040000#32] }) := by
  rw [addKey, keyPlan_of_le hlength]
  exact runPlan_send_raiseError reportOf (i := .add _) [] (whenConfigured_false hc) (by decide)

theorem testKey_of_unconfigured (hlength : (encoding key).length ≤ 65535) (hc : s.configured = false) :
    testKey encoding key s =
      some (.engine .notConfigured, none, { s with rsp := s.rsp ++ [0x03040000#32] }) := by
  rw [testKey, keyPlan_of_le hlength,
    runPlan_send_raiseError reportOf (i := .test _) [] (whenConfigured_false hc) (by decide)]
  rfl

end

/-- All bits of a key's locations are set, with the locations in closed form (R104). -/
theorem all_keyLocations_iff {s : State} (hm : mbits s ≠ 0) (key : List Sym) :
    (keyLocations s key).all (bitTest s.mem) = true ↔
      ∀ i, i < s.nhash.toNat → bitTest s.mem (closedLocation s.cfg (mbits s) key i) = true := by
  rw [List.all_eq_true]
  constructor
  · exact fun h i hi => h _ (closedLocation_mem_keyLocations hm hi)
  · intro h b hb
    obtain ⟨i, hi, rfl⟩ := (mem_keyLocations hm).mp hb
    exact h i hi

/-- The header of TEST's answer, in the spec's numbers (R63). -/
theorem testHeader_eq (b : Bool) :
    responseHeader (opCode .test) .ok b = if b then 0x03000001#32 else 0x03000000#32 := by
  cases b <;> rfl

/-- Settles O59: a key too long is not sent, an engine without a filter says so, and a configured one answers ADD and
TEST. -/
theorem addAndTestReportToTheirCaller : Obligations.AddAndTestReportToTheirCaller := by
  intro encoding key s
  refine ⟨fun hlength => ?_,
    fun hlength hc => ⟨addKey_of_unconfigured hlength hc, testKey_of_unconfigured hlength hc⟩,
    fun hlength hs hc => ⟨?_, ?_⟩⟩
  · rw [addKey, testKey, keyPlan_of_lt hlength, keyPlan_of_lt hlength]
    exact ⟨rfl, rfl⟩
  · have hm := hs.mbits_ne_zero hc
    exact ⟨_, _, testKey_of_configured hlength hc hm, testHeader_eq _, responseFlag_responseHeader _ _ _,
      all_keyLocations_iff hm _⟩
  · have hadd := execAdd_of_configured (key := encoding key) hc (hs.mbits_ne_zero hc)
    obtain ⟨-, hconfigured, hbits, hset⟩ := inv_and_reports_of_exec_add hs hc hadd
    have htest := testKey_of_configured hlength hconfigured hbits
    rw [List.all_eq_true.mpr hset] at htest
    exact ⟨_, addKey_of_configured hlength hc (hs.mbits_ne_zero hc), hadd, _, htest⟩

/-! ## Save (R158) -/

theorem save_of_configured {s : State} (hc : s.configured = true) :
    save s = some (.done, some (saveRecord s.nhash (arrayWords s)), { s with rsp := s.rsp ++ filterAnswers s }) := by
  rw [save, readFilter_of_configured hc]
  rfl

/-- Settles O60: what is read is what is saved, and the saved record loads the words read. -/
theorem saveThenLoadRestoresTheFilter : Obligations.SaveThenLoadRestoresTheFilter := by
  intro s hs hc
  have ⟨_, _, harray⟩ := hs
  refine ⟨_, save_of_configured hc, rfl, ?_, fun r hn hk => ?_⟩
  · rw [saveRecord, base64Decode_base64Encode, arrayWords, serialBytes_words]
  · rw [load_of_contents (recordContents_saveRecord _ (arrayWords_length_lt s)),
      (hs.fits hc hn hk).runPlan_loadMacro, loadReport_ok, loaded_arrayWords harray]

end Sys2Proof.Machine
end

section
/-! PROOF. Family 60_exceptions (R170 to R179): the code that a response carries tells an error from a success; then what
an error leaves as it was, the error matrix, and the engine that is not configured. -/

namespace Sys2Proof.Machine

/-! ## The code of a response (R63, R176) -/

/-- The response of an error is the header alone (R176). -/
theorem response_of_raiseError {opc : Byte} {e : ErrorCode} {s : State} {h : Word} {ws : List Word}
    (hr : (raiseError opc e s).rsp = s.rsp ++ h :: ws) : responseHeader opc e false = h ∧ [] = ws :=
  List.cons.inj (List.append_cancel_left hr)

theorem responseErr_of_raiseError {opc : Byte} {e : ErrorCode} {s : State} {h : Word} {ws : List Word}
    (hr : (raiseError opc e s).rsp = s.rsp ++ h :: ws) : responseErr h = (errorByte e).toNat :=
  (response_of_raiseError hr).1 ▸ responseErr_responseHeader opc e false

theorem responseErr_of_respond {opc : Byte} {f : Bool} {s u : State} {h : Word} {vs ws : List Word}
    (hu : u.rsp = s.rsp) (hr : (respond opc f vs u).rsp = s.rsp ++ h :: ws) : responseErr h = 0 := by
  rw [respond_rsp, hu] at hr
  obtain ⟨rfl, -⟩ := List.cons.inj (List.append_cancel_left hr)
  exact responseErr_responseHeader opc .ok f

/-! ## What an error says and leaves (R170, R173, R179) -/

/-- Settles O24: a success carries code 0, and an error is the header alone in the state as it was. -/
theorem errorChangesNothing : Obligations.ErrorChangesNothing := by
  intro i s t h ws hexec hr herr
  cases exec_answered hexec with
  | error e he =>
    obtain ⟨rfl, rfl⟩ := response_of_raiseError hr
    exact ⟨rfl, responseFlag_responseHeader _ _ _, rfl⟩
  | success f vs u hu hf hvs => exact absurd (responseErr_of_respond hu hr) herr

/-- Settles O25: the errors that each command's checks raise, in the order of its checks. -/
theorem errorMatrixHolds : Obligations.ErrorMatrixHolds := by
  intro i s t h ws hexec hr
  cases i with
  | init n k =>
    obtain ⟨-, created⟩ | ⟨-, refused⟩ := execInit_cases n k s
    · obtain rfl := next_inj (created.symm.trans hexec)
      exact .inl (responseErr_of_respond rfl hr)
    · obtain rfl := next_inj (refused.symm.trans hexec)
      exact .inr (responseErr_of_raiseError hr)
  | add key =>
    obtain ⟨-, rfl⟩ | ⟨-, -, rfl⟩ := execAdd_next hexec
    · exact .inr (responseErr_of_raiseError hr)
    · exact .inl (responseErr_of_respond rfl hr)
  | test key =>
    obtain ⟨-, rfl⟩ | ⟨-, -, rfl⟩ := execTest_next hexec
    · exact .inr (responseErr_of_raiseError hr)
    · exact .inl (responseErr_of_respond rfl hr)
  | loc key =>
    obtain ⟨-, rfl⟩ | ⟨-, -, rfl⟩ := execLoc_next hexec
    · exact .inr (responseErr_of_raiseError hr)
    · exact .inl (responseErr_of_respond rfl hr)
  | hash seed key =>
    obtain rfl := next_inj ((execHash_eq seed key s).symm.trans hexec)
    exact .inl (responseErr_of_respond rfl hr)
  | merge ok on ow =>
    obtain ⟨-, rfl⟩ | ⟨-, -, rfl⟩ | ⟨-, -, -, rfl⟩ | ⟨-, -, -, rfl⟩ := execMerge_next hexec
    · exact .inr (.inl (responseErr_of_raiseError hr))
    · exact .inr (.inr (.inl (responseErr_of_raiseError hr)))
    · exact .inr (.inr (.inr (responseErr_of_raiseError hr)))
    · exact .inl (responseErr_of_respond rfl hr)
  | rdw idx =>
    obtain ⟨-, rfl⟩ | ⟨-, -, rfl⟩ | ⟨-, -, rfl⟩ := execRdw_next hexec
    · exact .inr (.inl (responseErr_of_raiseError hr))
    · exact .inl (responseErr_of_respond rfl hr)
    · exact .inr (.inr (responseErr_of_raiseError hr))
  | rdr reg =>
    obtain ⟨v, -, answered⟩ | ⟨-, refused⟩ := execRdr_cases reg s
    · obtain rfl := next_inj (answered.symm.trans hexec)
      exact .inl (responseErr_of_respond rfl hr)
    · obtain rfl := next_inj (refused.symm.trans hexec)
      exact .inr (responseErr_of_raiseError hr)
  | bset idx =>
    obtain ⟨-, rfl⟩ | ⟨-, -, rfl⟩ | ⟨-, -, rfl⟩ := execBset_next hexec
    · exact .inr (.inl (responseErr_of_raiseError hr))
    · exact .inl (responseErr_of_respond rfl hr)
    · exact .inr (.inr (responseErr_of_raiseError hr))
  | btst idx =>
    obtain ⟨-, rfl⟩ | ⟨-, -, rfl⟩ | ⟨-, -, rfl⟩ := execBtst_next hexec
    · exact .inr (.inl (responseErr_of_raiseError hr))
    · exact .inl (responseErr_of_respond rfl hr)
    · exact .inr (.inr (responseErr_of_raiseError hr))

/-- Settles O26: seven commands make the CONFIGURED check first, and code 4 is not in the other three's rows of the error
matrix. -/
theorem unconfiguredEngineAnswersNotConfigured : Obligations.UnconfiguredEngineAnswersNotConfigured := by
  refine ⟨fun s hc => ⟨fun _ => whenConfigured_false hc, fun _ => whenConfigured_false hc,
    fun _ => whenConfigured_false hc, fun _ _ _ => whenConfigured_false hc, fun _ => whenConfigured_false hc,
    fun _ => whenConfigured_false hc, fun _ => whenConfigured_false hc⟩, ?_⟩
  intro i s t h ws hexec hr hi hcode
  have hrow := errorMatrixHolds i s t h ws hexec hr
  rw [hcode] at hrow
  obtain ⟨n, k, rfl⟩ | ⟨reg, rfl⟩ | ⟨seed, key, rfl⟩ := hi <;> simp at hrow

end Sys2Proof.Machine
end

section
/-! PROOF. Family 70_reset_and_hazards (R200 to R207): the reset pin, a whole command with its response moved across the
port, and a packet that comes in parts. Waiting words are read alike whether they stand in scratch or at the port. -/

namespace Sys2Proof.Machine

/-! ## An incomplete packet (R207, R19) -/

/-- Once R57 counts a payload, the words that come later do not change the count. -/
theorem payloadLength_append {op : Op} {h : Word} {p : List Word} {n : Nat} (hn : payloadLength op h p = some n)
    (q : List Word) : payloadLength op h (p ++ q) = some n := by
  cases op with
  | merge =>
    obtain _ | ⟨ok, _ | ⟨on, ow⟩⟩ := p
    · nomatch hn
    · nomatch hn
    · exact hn
  | init | add | test | loc | hash | rdw | rdr | bset | btst => exact hn

/-- A packet with payload words missing is not decoded: a payload counted now would be the whole one. -/
theorem decode_of_incomplete {h : Word} {p q : List Word} (hp : PayloadOf h (p ++ q)) (hq : q ≠ []) :
    decode (h :: p) = none := by
  obtain ⟨op, ho, hwhole⟩ := payloadLength_of_payloadOf hp
  have hop := opOfByte_of_opcNumber ho
  refine Option.eq_none_iff_forall_ne_some.mpr fun ⟨pkt, left⟩ hd => ?_
  obtain ⟨hnone, -⟩ | ⟨op', n, hop', hn, hle, -⟩ := decode_cons_some hd
  · nomatch hop.symm.trans hnone
  · obtain rfl := Option.some.inj (hop.symm.trans hop')
    have hcount := hwhole []
    rw [List.append_nil, payloadLength_append hn q, List.length_append] at hcount
    have hlen : n = p.length + q.length := Option.some.inj hcount
    have hmissing := List.length_pos_iff.mpr hq
    omega

/-- A receiving engine treats the words in scratch as if they were offered at the port. -/
theorem step_eq_step_offered {s : State} (hs : Receiving s) :
    step s = step { s with scratch := [], cmdIn := pendingWords s } := by
  obtain ⟨hrst, hrsp⟩ := hs
  have hoffered : nextPhase { s with scratch := [], cmdIn := pendingWords s } = receivePacket s :=
    nextPhase_receive hrst hrsp
  rw [step, step, hoffered, nextPhase_receive hrst hrsp]

theorem step_of_undecoded {s : State} (hs : Receiving s) (hd : decode (pendingWords s) = none) :
    step s = .next (holdPacket s) := by
  obtain ⟨hrst, hrsp⟩ := hs
  exact step_settled (by rw [nextPhase_receive hrst hrsp, receivePacket, hd])

/-- Settles O8: too few words for R57 are held, and held words count as words at the port. -/
theorem incompletePacketIsHeld : Obligations.IncompletePacketIsHeld := by
  intro s h p q hs hp hq (hpending : s.scratch ++ s.cmdIn = h :: p)
  have hd : decode (s.scratch ++ s.cmdIn) = none := by rw [hpending, decode_of_incomplete hp hq]
  constructor
  · rw [step_of_undecoded hs hd, holdPacket, hpending]
  · intro rest
    have hwords : h :: p ++ (q ++ rest) = h :: (p ++ q) ++ rest := by simp
    rw [← hwords]
    exact step_eq_step_offered (s := hostSend (q ++ rest) { s with scratch := h :: p, cmdIn := [] }) hs

/-! ## A whole command and its response (R206, R62) -/

/-- Settles O13: the command is executed in one step, and each further step moves one word of its response. -/
theorem commandRunsToItsLastResponseWord : Obligations.CommandRunsToItsLastResponseWord := by
  intro s t i rest hs hready hi hpending hexec
  obtain ⟨⟨-, -, hrst', -, hready', hstream⟩, -⟩ := commandsLeaveRegistersAndPorts i _ t hexec
  have hd : decode (pendingWords s) = some (.command i, rest) := by rw [hpending, decode_encode hi rest]
  have hstep : step s = .next t := (step_eq_exec_of_decode hs hd).trans hexec
  have hstart : t.rspStream = s.rspStream := hstream
  have ⟨hrst, _⟩ := hs
  rw [Nat.add_comm, run_succ hstep, ← hstart]
  exact run_moves_response (hrst'.trans hrst) (hready'.trans hready) t.scratch t.cmdIn t.rsp t.rspStream

/-! ## The reset pin (R200, R202, R203) -/

/-- Settles O12: the step is the port's reset, which leaves the pin at 1 and the offered words where they are. -/
theorem resetPinGivesTheResetState : Obligations.ResetPinGivesTheResetState := by
  intro s hrst
  have hready : cmdReady (resetEngine s) = false := by simp [cmdReady, hrst]
  have hvalid : rspValid (resetEngine s) = false := by simp [rspValid, hrst]
  exact ⟨resetEngine s, step_settled (nextPhase_reset hrst), rfl, rfl, hready, hvalid, rfl⟩

end Sys2Proof.Machine
end
